-- ==== Sys2Proof/Word.lean ====
section
/-! DEFINITION. The two bit-vector types of the block: a 32-bit register, address or command word, and one byte. -/

namespace Sys2Proof

/-- A register, a bus address or a command word: 32 bits (spec/10_state.md R36, R49; spec/30_encoding.md R90). -/
abbrev Word := BitVec 32

/-- One byte of bus memory or of the font space (spec/10_state.md R48, R49). -/
abbrev Byte := BitVec 8

end Sys2Proof
end

