-- ==== Sys2Proof/Syntax.lean ====
section
/-! DEFINITION. What is written to the block: the eight commands (spec/30_encoding.md R95), the registers of the window
(spec/10_state.md R36), and the inputs a run is made of (host accesses, host stores, ticker steps, reset). -/

namespace Sys2Proof

/-- The screen selector S: 1 is the top screen, 0 the bottom screen (spec/30_encoding.md R91). -/
inductive Screen where
  | bottom
  | top
deriving DecidableEq, Repr

/-- The eight commands of spec/30_encoding.md R95, one constructor for each row of spec/opcode_table.json. The operand
types are exactly the fields of R91 to R93, so every value of the type is an operand that the encoding admits. -/
inductive Instr where
  /-- R125: no operand. -/
  | nop
  /-- R126: screen, row, column. -/
  | pxaddr (sc : Screen) (row col : BitVec 3)
  /-- R127: screen, row, column. -/
  | pxput (sc : Screen) (row col : BitVec 3)
  /-- R144: screen, character code. -/
  | glyph (sc : Screen) (char : Byte)
  /-- R160: frames per second. -/
  | fprate (rate : Byte)
  /-- R163: no operand. -/
  | fpstart
  /-- R170: no operand. -/
  | fpwait
  /-- R173: no operand. -/
  | fpstop
deriving DecidableEq, Repr

/-- The registers of the window, in the order of the table of spec/10_state.md R36. -/
inductive Reg where
  | cmd | status | posX | posY | color | offset | fbdraw0 | fbdraw1 | rate | delay | tick | swapCnt | errInfo
deriving DecidableEq, Repr

/-- One access of the host to the bus, `size` bytes wide, as the host issues it: the `RD` and `WR` lines of
spec/30_encoding.md R111. Which accesses the window supports is checked in WellFormed.lean. -/
inductive Access where
  | read (addr : Word) (size : Nat)
  | write (addr : Word) (size : Nat) (value : Word)
deriving DecidableEq, Repr

/-- How finely a command is run. `whole`: acceptance to completion in one step (spec/41_glyph_unpacker.md R143 and
spec/70_reset_and_hazards.md R291 allow it). `stepwise`: PXPUT and GLYPH take one step for each bit examined and one for
each byte written, so that the ticker and the reset input can fall between any two of them (spec/42_frame_pacer.md R175,
spec/70_reset_and_hazards.md R270). -/
inductive Grain where
  | whole
  | stepwise
deriving DecidableEq, Repr

/-- One move of the block's surroundings. A run's inputs are a list of these, in the order in which they happen: that order
is the schedule that spec/42_frame_pacer.md R175 leaves open (assumption log 2 and 3). -/
inductive Input where
  /-- The ticker's clock edge: one ticker step if RUN = 1 (R175). -/
  | tick
  /-- The reset input (spec/70_reset_and_hazards.md R270). DESIGN CHOICE: asserting and releasing it are one instant, so that
  no access falls into the time of its assertion, of which the spec says nothing (assumption log 21). -/
  | reset
  /-- The sequencer's turn: one step of a drawing command that is part way, so that what stands after it in the list falls
  between two bits or bytes (R175, R270; assumption log 3). A sequencer that has no step lets the turn pass. -/
  | sequencer
  /-- The host accesses the register window; if that starts a command, the command runs at this grain. -/
  | access (grain : Grain) (a : Access)
  /-- The host stores one byte to bus memory itself (spec/43_host_sequences.md R222). -/
  | store (addr : Word) (byte : Byte)
deriving DecidableEq, Repr

end Sys2Proof
end

