-- ==== Sys2Proof/Config.lean ====
section
/-! DEFINITION. The implementation parameters of spec/00_scope.md R6 and the platform's memory map, as plain data. They are fixed for a run (R54): State
holds one Config, and no step changes it. The spec gives none of them a value (R6, N1 to N8), so statements are about every
Config; spec/00_scope.md R7 is the check `Config.Wf` of WellFormed.lean. No value of an instruction is left undefined by the
spec, so there is no free value here. -/

namespace Sys2Proof

/-- A stretch of bus addresses that has memory. -/
structure Region where
  base : Nat
  size : Nat
deriving DecidableEq, Repr

/-- The parameters of spec/00_scope.md R6, and the model's own `ram`. -/
structure Config where
  /-- `W[0]`, the bottom screen's width in pixels. -/
  widthBottom : Nat
  /-- `W[1]`, the top screen's width in pixels. -/
  widthTop : Nat
  /-- `H[0]`, the bottom screen's height in pixels. -/
  heightBottom : Nat
  /-- `H[1]`, the top screen's height in pixels. -/
  heightTop : Nat
  /-- `FONT`: the 2048 bytes of the font space, byte `r` of glyph `c` at index `c * 8 + r` (spec/10_state.md R48). -/
  font : List Byte
  /-- `F_TICK`, ticks per second before the prescaler. -/
  fTick : Nat
  /-- `DEFAULT_RATE`, the reset value of RATE. -/
  defaultRate : Byte
  /-- `TW`, the width of the tick counter in bits. -/
  tickBits : Nat
  /-- `BASE`, the bus address of the register window. -/
  base : Nat
  /-- `SPACING_X`, the cell width in pixels (host only). -/
  spacingX : Nat
  /-- `SPACING_Y`, the line height in pixels (host only). -/
  spacingY : Nat
  /-- `FORMAT_MAX`, the longest formatted text (host only). -/
  formatMax : Nat
  /-- The MODEL's own: where on the bus there is memory, which the spec leaves to the platform (spec/20_memory.md R69). A byte
  written anywhere else is lost (spec/60_exceptions.md R236; assumption log 18). -/
  ram : List Region
deriving DecidableEq, Repr

/-- `W[s]` (spec/00_scope.md R6). -/
def Config.width (c : Config) : Screen → Nat
  | .bottom => c.widthBottom
  | .top => c.widthTop

/-- `H[s]` (spec/00_scope.md R6). -/
def Config.height (c : Config) : Screen → Nat
  | .bottom => c.heightBottom
  | .top => c.heightTop

/-- The bus has memory at the address (spec/60_exceptions.md R236). -/
def Config.hasMemory (c : Config) (a : Nat) : Bool := c.ram.any fun r => decide (r.base ≤ a ∧ a < r.base + r.size)

/-- The size of a framebuffer in bytes, `3 * W[s] * H[s]` (spec/10_state.md R50, spec/20_memory.md R60). -/
def Config.frameBytes (c : Config) (sc : Screen) : Nat := 3 * c.width sc * c.height sc

end Sys2Proof
end

