-- ==== Sys2Proof/WellFormed.lean ====
section
/-! DEFINITION. The checks on what is written to the block. A command needs none: the types of Instr's operands are the
encoding's fields (Syntax.lean). A configuration must meet spec/00_scope.md R7, and a host access must be one the window
supports (spec/10_state.md R47). Each check stands under its own name; Tests/Slice0.lean has an ill-formed term for each. -/

namespace Sys2Proof

/-! ### Configurations: spec/00_scope.md R7 -/

/-- `8 <= W[s]` and `8 <= H[s]`: a glyph fits. -/
abbrev Config.ScreenHoldsGlyph (c : Config) (sc : Screen) : Prop := 8 ≤ c.width sc ∧ 8 ≤ c.height sc

/-- `3 * W[s] * H[s] <= 2^32`. -/
abbrev Config.FrameFits (c : Config) (sc : Screen) : Prop := c.frameBytes sc ≤ 2 ^ 32

/-- `1 <= F_TICK < 2^32`. -/
abbrev Config.FTickOk (c : Config) : Prop := 1 ≤ c.fTick ∧ c.fTick < 2 ^ 32

/-- `1 <= TW <= 32`. -/
abbrev Config.TickBitsOk (c : Config) : Prop := 1 ≤ c.tickBits ∧ c.tickBits ≤ 32

/-- `BASE` is a multiple of 64. -/
abbrev Config.BaseAligned (c : Config) : Prop := c.base % 64 = 0

/-- `BASE + 64 <= 2^32`. -/
abbrev Config.BaseFits (c : Config) : Prop := c.base + 64 ≤ 2 ^ 32

/-- The font table has its 256 entries of 8 bytes (spec/00_scope.md R6, R8; spec/10_state.md R48). -/
abbrev Config.FontComplete (c : Config) : Prop := c.font.length = 2048

/-- Every constraint of spec/00_scope.md R7. `0 <= DEFAULT_RATE <= 255` holds by the field's type. -/
abbrev Config.Wf (c : Config) : Prop :=
  c.ScreenHoldsGlyph .bottom ∧ c.ScreenHoldsGlyph .top ∧ c.FrameFits .bottom ∧ c.FrameFits .top ∧
    c.FTickOk ∧ c.TickBitsOk ∧ c.BaseAligned ∧ c.BaseFits ∧ c.FontComplete

/-! ### Host accesses: spec/10_state.md R47 -/

/-- The bus address an access names. -/
def Access.addr : Access → Word
  | .read a _ => a
  | .write a _ _ => a

/-- The width of an access in bytes. -/
def Access.size : Access → Nat
  | .read _ n => n
  | .write _ n _ => n

/-- The address lies in the 64-byte register window at BASE (spec/10_state.md R36). -/
abbrev InWindow (c : Config) (a : Word) : Prop := c.base ≤ a.toNat ∧ a.toNat < c.base + 64

/-- The access is addressed to the register window. -/
abbrev Access.ToWindow (c : Config) (a : Access) : Prop := InWindow c a.addr

/-- The access is 32 bits wide. -/
abbrev Access.WordWide (a : Access) : Prop := a.size = 4

/-- The access is word-aligned. -/
abbrev Access.Aligned (a : Access) : Prop := a.addr.toNat % 4 = 0

/-- The access is not to one of the reserved offsets 0x34, 0x38, 0x3C (nor to the bytes inside those words). -/
abbrev Access.NotReserved (c : Config) (a : Access) : Prop := a.addr.toNat - c.base < 0x34

/-- An access the window supports: "Only aligned 32-bit reads and writes are defined" (spec/10_state.md R47). -/
abbrev Access.Wf (c : Config) (a : Access) : Prop :=
  a.ToWindow c ∧ a.WordWide ∧ a.Aligned ∧ a.NotReserved c

end Sys2Proof
end

