-- ==== Sys2Proof/Decode.lean ====
section
/-! DEFINITION. Decoding a command word (spec/30_encoding.md R91 to R97) and encoding a command (the Encoding lines of
R125 to R173). Decoding is total on all 2^32 words and rejects by name. -/

namespace Sys2Proof

/-! ### Fields: spec/30_encoding.md R91 and R92 -/

/-- OPC, bits 31:28. -/
def opcField (w : Word) : BitVec 4 := w.extractLsb' 28 4

/-- S, bit 27. -/
def sField (w : Word) : BitVec 1 := w.extractLsb' 27 1

/-- Z, bits 26:8, reserved. -/
def zField (w : Word) : BitVec 19 := w.extractLsb' 8 19

/-- ARG, bits 7:0. -/
def argField (w : Word) : Byte := w.extractLsb' 0 8

/-- ARG[7:6], reserved in format P. -/
def argHighField (w : Word) : BitVec 2 := w.extractLsb' 6 2

/-- ROW = ARG[5:3]. -/
def rowField (w : Word) : BitVec 3 := w.extractLsb' 3 3

/-- COL = ARG[2:0]. -/
def colField (w : Word) : BitVec 3 := w.extractLsb' 0 3

/-- The screen that the S bit selects: "1 = top screen, 0 = bottom screen" (R91). -/
def Screen.ofBit (b : BitVec 1) : Screen := if b = 0 then .bottom else .top

/-- The S bit of a screen (R91). -/
def Screen.toBit : Screen → BitVec 1
  | .bottom => 0
  | .top => 1

/-! ### Decoding: spec/30_encoding.md R94 -/

/-- Why a word spells no command. -/
inductive Illegal where
  /-- Opcode 8 to 15 (R96). -/
  | reservedOpcode
  /-- A 1 in a must-be-zero position of an opcode 0 to 7 (R97). -/
  | reservedBits
deriving DecidableEq, Repr

/-- What a word spells: exactly one command, or it is illegal (R94). -/
inductive Decoded where
  | command (i : Instr)
  | illegal (why : Illegal)
deriving DecidableEq, Repr

/-- Format N: S and ARG must be 0 (R92, R94 step 3). -/
def decodeN (w : Word) (i : Instr) : Decoded :=
  if sField w ≠ 0 ∨ argField w ≠ 0 then .illegal .reservedBits else .command i

/-- Format P: ARG[7:6] must be 0; screen, ROW, COL (R92, R94 step 3). -/
def decodeP (w : Word) (mk : Screen → BitVec 3 → BitVec 3 → Instr) : Decoded :=
  if argHighField w ≠ 0 then .illegal .reservedBits
  else .command (mk (Screen.ofBit (sField w)) (rowField w) (colField w))

/-- Format G: screen and CHAR, no further check (R92, R94 step 3). -/
def decodeG (w : Word) (mk : Screen → Byte → Instr) : Decoded :=
  .command (mk (Screen.ofBit (sField w)) (argField w))

/-- Format R: S must be 0; RATE (R92, R94 step 3). -/
def decodeR (w : Word) (mk : Byte → Instr) : Decoded :=
  if sField w ≠ 0 then .illegal .reservedBits else .command (mk (argField w))

/-- The total decoding function, in the order of R94: the opcode, then Z, then the format's own check. -/
def decode (w : Word) : Decoded :=
  if 8 ≤ (opcField w).toNat then .illegal .reservedOpcode
  else if zField w ≠ 0 then .illegal .reservedBits
  else
    match (opcField w).toNat with
    | 0 => decodeN w .nop
    | 1 => decodeP w .pxaddr
    | 2 => decodeP w .pxput
    | 3 => decodeG w .glyph
    | 4 => decodeR w .fprate
    | 5 => decodeN w .fpstart
    | 6 => decodeN w .fpwait
    | _ => decodeN w .fpstop

/-- The instruction that the decoder reads from the low `nbits` bits of `w`, the bits above them zero. A command is one
32-bit word and the block fetches from no memory (R90, spec/20_memory.md R80), so there is no byte order to lay out. -/
def decodeTableWord (nbits w : Nat) : Option Instr :=
  match decode (BitVec.ofNat 32 (w % 2 ^ nbits)) with
  | .command i => some i
  | .illegal _ => none

/-! ### Encoding: the Encoding lines of the command rules -/

/-- `S<<27`. -/
def Screen.field (sc : Screen) : Word := sc.toBit.setWidth 32 <<< 27

/-- `ROW<<3 | COL`. -/
def cellField (row col : BitVec 3) : Word := (row.setWidth 32 <<< 3) ||| col.setWidth 32

/-- The word of a command (the Encoding lines of R125, R126, R127, R144, R160, R163, R170, R173). -/
def encode : Instr → Word
  | .nop => 0x00000000
  | .pxaddr sc row col => 0x10000000 ||| sc.field ||| cellField row col
  | .pxput sc row col => 0x20000000 ||| sc.field ||| cellField row col
  | .glyph sc char => 0x30000000 ||| sc.field ||| char.setWidth 32
  | .fprate rate => 0x40000000 ||| rate.setWidth 32
  | .fpstart => 0x50000000
  | .fpwait => 0x60000000
  | .fpstop => 0x70000000

/-- The `match` word of a command's row in the table of R95. -/
def rowMatch : Instr → Word
  | .nop => 0x00000000
  | .pxaddr _ _ _ => 0x10000000
  | .pxput _ _ _ => 0x20000000
  | .glyph _ _ => 0x30000000
  | .fprate _ => 0x40000000
  | .fpstart => 0x50000000
  | .fpwait => 0x60000000
  | .fpstop => 0x70000000

/-- The `mask` word of a command's row in the table of R95. -/
def rowMask : Instr → Word
  | .nop => 0xFFFFFFFF
  | .pxaddr _ _ _ => 0xF7FFFFC0
  | .pxput _ _ _ => 0xF7FFFFC0
  | .glyph _ _ => 0xF7FFFF00
  | .fprate _ => 0xFFFFFF00
  | .fpstart => 0xFFFFFFFF
  | .fpwait => 0xFFFFFFFF
  | .fpstop => 0xFFFFFFFF

end Sys2Proof
end

