-- ==== Sys2Proof/Machine/Board.lean ====
section
/-! DEFINITION. The instantiation of the parameters at which State.reset stands: the one spec/95_test_vectors.md uses (its
numbers are those of spec/00_scope.md R9, its font the test font TF). DESIGN CHOICE, unsafe: the spec gives the parameters
no value (assumption log 1). No statement about the block rests on it: statements are about every Config. -/

namespace Sys2Proof.Machine

/-- Glyph `c` of the test font TF of spec/95_test_vectors.md, its 8 rows from the top. -/
def testGlyph (c : Nat) : List Byte :=
  if c = 0x00 ∨ c = 0x20 then [0x00, 0x00, 0x00, 0x00, 0x00, 0x00, 0x00, 0x00]
  else if c = 0x01 then [0x80, 0x00, 0x00, 0x00, 0x00, 0x00, 0x00, 0x01]
  else if c = 0x02 then [0xFF, 0xFF, 0xFF, 0xFF, 0xFF, 0xFF, 0xFF, 0xFF]
  else if c = 0x41 then [0x18, 0x3C, 0x66, 0x66, 0x7E, 0x66, 0x66, 0x00]
  else [0x80, 0x00, 0x00, 0x00, 0x00, 0x00, 0x00, 0x00]

/-- The 2048 bytes of TF, glyph after glyph. -/
def testFont : List Byte := (List.range 256).flatMap testGlyph

/-- The example instantiation: spec/00_scope.md R9 for the screens, F_TICK, TW and the spacings; `DEFAULT_RATE = 15` as in
vector V39; BASE, FORMAT_MAX and memory on the whole bus are this model's choice (assumption log 1 and 18). -/
def board : Config where
  widthBottom := 320
  widthTop := 400
  heightBottom := 240
  heightTop := 240
  font := testFont
  fTick := 67027964
  defaultRate := 15
  tickBits := 16
  base := 0x10000000
  spacingX := 8
  spacingY := 10
  formatMax := 512
  ram := [⟨0, 2 ^ 32⟩]

end Sys2Proof.Machine
end

