-- ==== Sys2Proof/Machine/State.lean ====
section
/-! DEFINITION. The state of the block as plain data: every register of spec/10_state.md R36, the flags of R32 to R35, the
sequencer's condition with the scan counter of R30 and R31, bus memory, the parameters of spec/00_scope.md R6, and the
model's own inputs and history. Also the reasons a step can stop, and the state after reset (spec/70_reset_and_hazards.md
R270, R271). -/

namespace Sys2Proof.Machine

/-- Bus memory as its known bytes: addresses strictly rising. An unlisted address has no value (spec/93 U6, R273). -/
abbrev Memory := List Host.Cell

/-- One byte write that the block issues: its bus address and the byte (spec/20_memory.md R65). -/
abbrev ByteWrite := Word × Byte

/-- The scan counter of GLYPH (spec/10_state.md R31): row and column, each 0 to 7. -/
structure Scan where
  row : BitVec 3
  col : BitVec 3
deriving DecidableEq, Repr

/-- The sequencer's condition between two steps (spec/10_state.md R30, spec/70_reset_and_hazards.md R291). -/
inductive Sequencer where
  /-- No command is executing; the host may issue an access. -/
  | idle
  /-- An FPWAIT is held (spec/42_frame_pacer.md R170); the host is stalled. -/
  | waiting
  /-- A PXPUT or GLYPH is part way (stepwise grain); the host is stalled. `scan` is the character code and scan counter of a
  GLYPH whose next bit is still to be examined, and none for a PXPUT or after the last bit; `pending` are the bytes of the
  current pixel not yet written. -/
  | drawing (sc : Screen) (scan : Option (Byte × Scan)) (pending : List ByteWrite)
deriving DecidableEq, Repr

/-- The records of spec/00_scope.md R13. -/
inductive Record where
  /-- The host wrote the register at this offset of the window. -/
  | regWrite (offset : Nat) (value : Word)
  /-- The host read the register at this offset and got this value. -/
  | regRead (offset : Nat) (value : Word)
  /-- A command word was accepted. -/
  | cmd (word : Word)
  /-- The block wrote one byte of bus memory. -/
  | memWrite (addr : Word) (byte : Byte)
  /-- The tick counter was incremented. -/
  | tick
  /-- A framebuffer swap was requested. -/
  | swapReq
  /-- A fault was raised, with its ERRCODE and the command word. -/
  | fault (code : BitVec 4) (word : Word)
deriving DecidableEq, Repr

/-- The state of the machine. -/
structure State where
  /-- The parameters (spec/00_scope.md R6); no step changes them (spec/10_state.md R54). -/
  cfg : Config
  /-- POSX (R21). -/
  posX : Word
  /-- POSY (R22). -/
  posY : Word
  /-- COLOR (R23). -/
  color : Word
  /-- OFFSET (R39). -/
  offset : Word
  /-- FBDRAW0 (R40). -/
  fbdraw0 : Word
  /-- FBDRAW1 (R40). -/
  fbdraw1 : Word
  /-- RATE (R41). -/
  rate : Byte
  /-- DELAY (R43). -/
  delay : Word
  /-- TICK (R42): its TW bits, zero-extended. -/
  tick : Word
  /-- RUN (R34). -/
  run : Bool
  /-- SWAPCNT (R45). -/
  swapCnt : Word
  /-- ERR (R35). -/
  err : Bool
  /-- ERRCODE (R35, spec/60_exceptions.md R230). -/
  errCode : BitVec 4
  /-- ERRINFO (R46). -/
  errInfo : Word
  /-- The sequencer's condition (R30, R31). -/
  seq : Sequencer
  /-- Bus memory (R49, R50). -/
  memory : Memory
  /-- The MODEL's own: what is still to happen around the block, in order (assumption log 2 and 3). -/
  inputs : List Input
  /-- The MODEL's own: the records of spec/00_scope.md R13, oldest first (assumption log 4). -/
  history : List Record
deriving DecidableEq, Repr

/-- Why a step stops the model. The block's own three faults (spec/60_exceptions.md R230) are no constructor here: their
entry is a next state (R242). -/
inductive Fault where
  /-- Raised by a step in which an FPWAIT is held, REACHED = 0, RUN = 0 and no reset comes: nothing can lift the wait, so no
  step of any agent is enabled (spec/42_frame_pacer.md R171, spec/93 U13). Safe: the hardware makes no progress either. -/
  | stuckWait
deriving DecidableEq, Repr

/-- Why the model refuses a step. -/
inductive Refusal where
  /-- Raised by exec for a command without a meaning in this model; no arm raises it. Safe. -/
  | notModelled (mnemonic : String)
  /-- Raised by a host register access that is not addressed to the register window; what other bus slaves do is not the
  block's (spec/10_state.md R49). Safe. -/
  | outsideWindow
  /-- Raised by a host access to the window that is not 32 bits wide (spec/10_state.md R47, spec/93 U4). Safe. -/
  | accessWidth
  /-- Raised by a host access to the window that is not word-aligned (R47, U4). Safe. -/
  | misaligned
  /-- Raised by a host access to the reserved offsets 0x34 to 0x3C (R47, U4). Safe. -/
  | reservedOffset
  /-- Raised by a PXPUT or GLYPH one of whose byte addresses lies in the block's own register window (spec/20_memory.md
  R71, spec/93 U5). Safe. -/
  | windowOverlap
deriving DecidableEq, Repr

/-- The three outcomes of a step of this machine. -/
abbrev Outcome := Host.Outcome State Fault Refusal

/-- The state after reset of a block with parameters `c`, bus memory unknown and nothing to come
(spec/70_reset_and_hazards.md R270, R271; spec/10_state.md R36). -/
def State.resetWith (c : Config) : State where
  cfg := c
  posX := 0
  posY := 0
  color := 0
  offset := 0
  fbdraw0 := 0
  fbdraw1 := 0
  rate := c.defaultRate
  delay := 0
  tick := 0
  run := false
  swapCnt := 0
  err := false
  errCode := 0
  errInfo := 0
  seq := .idle
  memory := []
  inputs := []
  history := []

/-- The state after reset, at the instantiation `board` of the parameters (assumption log 1). -/
def State.reset : State := State.resetWith board

end Sys2Proof.Machine
end

