-- ==== Sys2Proof/Machine/Operands.lean ====
section
/-! DEFINITION. The operands of the drawing commands: bounds checks, the pixel address function, colour bytes
(spec/40_pixel_writer.md), glyph bits and the scan order (spec/41_glyph_unpacker.md), and the delay function
(spec/42_frame_pacer.md R161). All arithmetic is on natural numbers (spec/00_scope.md R12). -/

namespace Sys2Proof.Machine

/-! ### The pixel addresser: spec/40_pixel_writer.md -/

/-- `InBoundsPixel(s, row, col)` of R123. -/
abbrev InBoundsPixel (s : State) (sc : Screen) (row col : Nat) : Prop :=
  s.posX.toNat ≤ s.cfg.width sc - 1 - col ∧ s.posY.toNat ≤ s.cfg.height sc - 1 - row

/-- `InBoundsGlyph(s)` of R123. -/
abbrev InBoundsGlyph (s : State) (sc : Screen) : Prop :=
  s.posX.toNat ≤ s.cfg.width sc - 8 ∧ s.posY.toNat ≤ s.cfg.height sc - 8

/-- `Offset(H, posX, posY, row, col)` of R121, the document's formula term by term. Used only after a bounds check. -/
def pixelOffset (h posX posY row col : Nat) : Nat :=
  posX * h * 3 + (h - row - posY - 1) * 3 + col * 3 * h

/-- The offset of the cell (row, col) of what is placed at POSX, POSY on a screen (R121, R126). -/
def cellOffset (s : State) (sc : Screen) (row col : Nat) : Nat :=
  pixelOffset (s.cfg.height sc) s.posX.toNat s.posY.toNat row col

/-- `x[FBDRAWs]`: FBDRAW0 for the bottom screen, FBDRAW1 for the top screen (spec/10_state.md R40). -/
def State.fbdraw (s : State) : Screen → Word
  | .bottom => s.fbdraw0
  | .top => s.fbdraw1

/-- `ColorBytes(c)` of R128, in the order in which the bytes are written; bits 31:24 are ignored. -/
def colorBytes (c : Word) : Byte × Byte × Byte :=
  (((c >>> 16) &&& 0xFF).setWidth 8, ((c >>> 8) &&& 0xFF).setWidth 8, (c &&& 0xFF).setWidth 8)

/-- The bus address of byte `k` of the pixel at offset `p`: `(x[FBDRAWs] + p + k) mod 2^32` (spec/20_memory.md R70). -/
def byteAddr (fb : Word) (p k : Nat) : Word := fb + BitVec.ofNat 32 (p + k)

/-- The three byte writes of `WritePixel` (R128), in order. -/
def pixelWrites (s : State) (sc : Screen) (p : Nat) : List ByteWrite :=
  let b := colorBytes s.color
  [(byteAddr (s.fbdraw sc) p 0, b.1), (byteAddr (s.fbdraw sc) p 1, b.2.1), (byteAddr (s.fbdraw sc) p 2, b.2.2)]

/-! ### The glyph bit unpacker: spec/41_glyph_unpacker.md -/

/-- `FontRead(c, r)`: the byte at index `c * 8 + r` of the font space (spec/10_state.md R48). Every index is below 2048, the
length of a well-formed configuration's font. -/
def fontRead (c : Config) (char : Byte) (r : Nat) : Byte := c.font.getD (char.toNat * 8 + r) 0

/-- `GlyphBit(c, r, k)`: bit `7 - k` of row byte `r` (R140). -/
def glyphBit (c : Config) (char : Byte) (r k : Nat) : Bool := (fontRead c char r >>> (7 - k)).getLsbD 0

/-- The 64-bit view `Mask(c)` of R141, row 0 in the top byte. -/
def glyphMask (c : Config) (char : Byte) : BitVec 64 :=
  fontRead c char 0 ++ fontRead c char 1 ++ fontRead c char 2 ++ fontRead c char 3 ++
    fontRead c char 4 ++ fontRead c char 5 ++ fontRead c char 6 ++ fontRead c char 7

/-- The scan counter's advance: along the row, then to the next row, and none after (7, 7) (spec/10_state.md R31). -/
def Scan.next (p : Scan) : Option Scan :=
  if p.col ≠ 7 then some ⟨p.row, p.col + 1⟩
  else if p.row ≠ 7 then some ⟨p.row + 1, 0⟩
  else none

/-- The scan counter's first value (R31). -/
def Scan.first : Scan := ⟨0, 0⟩

/-- The positions the scan counter takes from `p` on, at most `n` of them. -/
def scanFrom : Nat → Scan → List Scan
  | 0, _ => []
  | n + 1, p =>
    match p.next with
    | none => [p]
    | some q => p :: scanFrom n q

/-- The 64 positions of a glyph in scan order (R143). -/
def scanOrder : List Scan := scanFrom 64 Scan.first

/-- The bit of the glyph at a position of the scan counter. -/
def scanBit (c : Config) (char : Byte) (p : Scan) : Bool := glyphBit c char p.row.toNat p.col.toNat

/-- The positions of the set bits of a glyph, in scan order. -/
def setBits (c : Config) (char : Byte) : List Scan := scanOrder.filter (scanBit c char)

/-- The offset of the pixel at a position of the scan counter (R144). -/
def scanOffset (s : State) (sc : Screen) (p : Scan) : Nat := cellOffset s sc p.row.toNat p.col.toNat

/-- Every byte write of a GLYPH, in order (R144, R145). -/
def glyphWrites (s : State) (sc : Screen) (char : Byte) : List ByteWrite :=
  (setBits s.cfg char).flatMap fun p => pixelWrites s sc (scanOffset s sc p)

/-! ### The block's own window: spec/20_memory.md R71 -/

/-- Some byte address of the writes lies in the register window (R71). -/
def hitsWindow (c : Config) (ws : List ByteWrite) : Bool := ws.any fun w => decide (InWindow c w.1)

/-! ### The frame pacer: spec/42_frame_pacer.md -/

/-- `Delay(F, rate) = (F / 1024) / rate` of R161, both divisions the integer division. -/
def pacerDelay (f rate : Nat) : Nat := f / 1024 / rate

/-- A value cut to the counter's TW bits (spec/10_state.md R42). -/
def tickTrunc (c : Config) (v : Nat) : Word := BitVec.ofNat 32 (v % 2 ^ c.tickBits)

end Sys2Proof.Machine
end

