-- ==== Sys2Proof/Machine/Flags.lean ====
section
/-! DEFINITION. The flags (spec/10_state.md R32 to R35) and the STATUS word (R38). There are no arithmetic condition codes. -/

namespace Sys2Proof.Machine

/-- REACHED: `zext_32(x[TICK]) >= x[DELAY]`, unsigned, at every moment (R33). -/
abbrev Reached (s : State) : Prop := s.delay.toNat ≤ s.tick.toNat

/-- A one-bit flag at bit `n` of a word. -/
def flagAt (b : Bool) (n : Nat) : Word := (BitVec.ofBool b).setWidth 32 <<< n

/-- STATUS: REACHED at bit 0, RUN at bit 1, ERR at bit 2, ERRCODE at bits 11:8, zeros elsewhere (R38). -/
def statusWord (s : State) : Word :=
  flagAt (decide (Reached s)) 0 ||| flagAt s.run 1 ||| flagAt s.err 2 ||| (s.errCode.setWidth 32 <<< 8)

end Sys2Proof.Machine
end

