-- ==== Sys2Proof/Machine/Ops.lean ====
section
/-! DEFINITION. The shared operations: bus memory, the history, the block's byte writes, fault entry (spec/60_exceptions.md
R242; there is no return from a fault, R246), the ticker's step (spec/42_frame_pacer.md R175), the completion of FPWAIT
(R170), and reset (spec/70_reset_and_hazards.md R270). -/

namespace Sys2Proof.Machine

/-! ### Bus memory: spec/10_state.md R49, assumption log 6 -/

/-- What an address reads as: its known byte, or no value if nothing has written it (spec/93 U6). -/
def Memory.read : Memory → Nat → Option Byte
  | [], _ => none
  | (k, b) :: m, a => if a = k then some b else Memory.read m a

/-- The memory after one byte write, addresses kept strictly rising. -/
def Memory.write : Memory → Nat → Byte → Memory
  | [], a, b => [(a, b)]
  | (k, c) :: m, a, b =>
    if a < k then (a, b) :: (k, c) :: m
    else if a = k then (a, b) :: m
    else (k, c) :: Memory.write m a b

/-- The memory after one byte is written on the bus: the byte is kept where the bus has memory and silently lost elsewhere; the
write completes in either case (spec/60_exceptions.md R236). -/
def Memory.store (c : Config) (m : Memory) (a : Word) (b : Byte) : Memory :=
  if c.hasMemory a.toNat then m.write a.toNat b else m

/-- The canonical form: addresses strictly rising and inside the 2^32 bytes of the bus space. No listed entry can equal what
an unlisted address reads as, which is no value at all. -/
abbrev Memory.wf (m : Memory) : Prop :=
  m.Pairwise (fun x y => x.1 < y.1) ∧ ∀ x ∈ m, x.1 < 2 ^ 32

/-- What a bus address reads as. -/
def State.readByte (s : State) (a : Word) : Option Byte := s.memory.read a.toNat

/-! ### History and byte writes -/

/-- The state with one record more (spec/00_scope.md R13). -/
def State.record (s : State) (r : Record) : State := { s with history := s.history ++ [r] }

/-- `MemWrite(addr, 1, byte)` by the block: the byte goes out on the bus and is recorded (spec/00_scope.md R11, R13). -/
def State.writeByte (s : State) (w : ByteWrite) : State :=
  { s with memory := s.memory.store s.cfg w.1 w.2, history := s.history ++ [.memWrite w.1 w.2] }

/-- Byte writes in order, each performed before the next (spec/20_memory.md R74, R75). -/
def State.writeBytes (s : State) (ws : List ByteWrite) : State := ws.foldl State.writeByte s

/-- `x[OFFSET] <- P` (spec/40_pixel_writer.md R126, R127). -/
def State.latchOffset (s : State) (p : Nat) : State := { s with offset := BitVec.ofNat 32 p }

/-- One pixel at offset `p`: OFFSET, then the three bytes (R127, R144). -/
def State.drawPixel (sc : Screen) (s : State) (p : Nat) : State :=
  (s.latchOffset p).writeBytes (pixelWrites s sc p)

/-- Pixels in order. -/
def State.drawPixels (sc : Screen) (s : State) (ps : List Nat) : State := ps.foldl (State.drawPixel sc) s

/-! ### Fault entry: spec/60_exceptions.md -/

/-- The block's three faults (R230). -/
inductive Cause where
  | illegalCommand
  | boundsFault
  | rateZero
deriving DecidableEq, Repr

/-- The ERRCODE of a fault (R230). -/
def Cause.code : Cause → BitVec 4
  | .illegalCommand => 1
  | .boundsFault => 2
  | .rateZero => 3

/-- `raise F(word)`: ERR, ERRCODE, ERRINFO and the Fault record, and nothing else (R242). There is no vector, no mode and no
saved address, and no return but reset (R246). -/
def State.raise (s : State) (f : Cause) (word : Word) : State :=
  { s with err := true, errCode := f.code, errInfo := word, history := s.history ++ [.fault f.code word] }

/-! ### The frame pacer: spec/42_frame_pacer.md -/

/-- The ticker's one step, enabled exactly when RUN = 1 (R175). -/
def State.ticked (s : State) : State :=
  if s.run then { s with tick := tickTrunc s.cfg (s.tick.toNat + 1), history := s.history ++ [.tick] } else s

/-- The completion of FPWAIT: TICK zeroed, SWAPCNT counted up, one SwapReq, all at one moment (R170). -/
def State.completeWait (s : State) : State :=
  { s with tick := 0, swapCnt := s.swapCnt + 1, seq := .idle, history := s.history ++ [.swapReq] }

/-- FPSTART's three writes, which take effect together (R163). -/
def State.startTimer (s : State) : State :=
  { s with delay := BitVec.ofNat 32 (pacerDelay s.cfg.fTick s.rate.toNat), tick := 0, run := true }

/-! ### Reset: spec/70_reset_and_hazards.md -/

/-- The reset input: every register at its reset value, the sequencer idle, a command in progress abandoned (R270); bus
memory is untouched (R273). -/
def State.resetBlock (s : State) : State :=
  { State.resetWith s.cfg with memory := s.memory, inputs := s.inputs, history := s.history }

end Sys2Proof.Machine
end

