-- ==== Sys2Proof/Machine/Glyph.lean ====
section
/-! DEFINITION. The command of the unit GBU: GLYPH (spec/41_glyph_unpacker.md). -/

namespace Sys2Proof.Machine

/-- GLYPH s, char (R144): the extent check, then each set bit in scan order as one pixel; a glyph one of whose bytes would
fall in the block's own window is refused (spec/20_memory.md R71). -/
def execGlyph (sc : Screen) (char : Byte) (s : State) : Outcome :=
  if InBoundsGlyph s sc then
    if hitsWindow s.cfg (glyphWrites s sc char) then .refused .windowOverlap
    else .next (s.drawPixels sc ((setBits s.cfg char).map (scanOffset s sc)))
  else .next (s.raise .boundsFault (encode (.glyph sc char)))

end Sys2Proof.Machine
end

