-- ==== Sys2Proof/Machine/Pacer.lean ====
section
/-! DEFINITION. The commands of the unit FPC: FPRATE, FPSTART, FPWAIT, FPSTOP (spec/42_frame_pacer.md). -/

namespace Sys2Proof.Machine

/-- FPRATE rate (R160): RATE only; a rate of 0 is accepted. -/
def execFprate (rate : Byte) (s : State) : Outcome := .next { s with rate := rate }

/-- FPSTART (R163): RateZero if RATE is 0, else DELAY latched, TICK zeroed, RUN set. -/
def execFpstart (s : State) : Outcome :=
  if s.rate = 0 then .next (s.raise .rateZero (encode .fpstart)) else .next s.startTimer

/-- FPWAIT (R170): completes at once if REACHED, else the command is held and the sequencer waits; the steps of the waiting
sequencer are in Machine/Agents.lean. -/
def execFpwait (s : State) : Outcome :=
  if Reached s then .next s.completeWait else .next { s with seq := .waiting }

/-- FPSTOP (R173): RUN only. -/
def execFpstop (s : State) : Outcome := .next { s with run := false }

end Sys2Proof.Machine
end

