-- ==== Sys2Proof/Machine/Pixel.lean ====
section
/-! DEFINITION. The commands of the unit PAW: NOP, PXADDR, PXPUT (spec/40_pixel_writer.md). A command word that raises a
fault is the command's own encoding: every word spells one command at most, and every bit that is no operand is fixed
(spec/30_encoding.md R94, R95). -/

namespace Sys2Proof.Machine

/-- NOP (R125): done. -/
def execNop (s : State) : Outcome := .next s

/-- PXADDR s, row, col (R126). -/
def execPxaddr (sc : Screen) (row col : BitVec 3) (s : State) : Outcome :=
  if InBoundsPixel s sc row.toNat col.toNat then
    .next (s.latchOffset (cellOffset s sc row.toNat col.toNat))
  else .next (s.raise .boundsFault (encode (.pxaddr sc row col)))

/-- PXPUT s, row, col (R127); a write into the block's own window is refused (spec/20_memory.md R71). -/
def execPxput (sc : Screen) (row col : BitVec 3) (s : State) : Outcome :=
  if InBoundsPixel s sc row.toNat col.toNat then
    if hitsWindow s.cfg (pixelWrites s sc (cellOffset s sc row.toNat col.toNat)) then .refused .windowOverlap
    else .next (s.drawPixel sc (cellOffset s sc row.toNat col.toNat))
  else .next (s.raise .boundsFault (encode (.pxput sc row col)))

end Sys2Proof.Machine
end

