-- ==== Sys2Proof/Machine/Dispatch.lean ====
section
/-! DEFINITION. exec: the effect of one accepted command (spec/30_encoding.md R95). Acceptance itself (ERR = 0, decoding) is
in Machine/Bus.lean. -/

namespace Sys2Proof.Machine

def exec (i : Instr) (s : State) : Host.Outcome State Fault Refusal :=
  match i with
  | .nop => Sys2Proof.Machine.execNop s
  | .pxaddr sc row col => Sys2Proof.Machine.execPxaddr sc row col s
  | .pxput sc row col => Sys2Proof.Machine.execPxput sc row col s
  | .glyph sc char => Sys2Proof.Machine.execGlyph sc char s
  | .fprate rate => Sys2Proof.Machine.execFprate rate s
  | .fpstart => Sys2Proof.Machine.execFpstart s
  | .fpwait => Sys2Proof.Machine.execFpwait s
  | .fpstop => Sys2Proof.Machine.execFpstop s

end Sys2Proof.Machine
end

