-- ==== Sys2Proof/Machine/Stepwise.lean ====
section
/-! DEFINITION. The stepwise grain of PXPUT and GLYPH: the same commands begun, then carried on one bit or one byte at a
time, so that the ticker (spec/42_frame_pacer.md R175) and the reset input (spec/70_reset_and_hazards.md R270) can fall
between. The byte writes are the single-copy atomic units of spec/20_memory.md R66. -/

namespace Sys2Proof.Machine

/-- PXPUT begun: the checks of R127, OFFSET latched, the three bytes still to write. -/
def beginPxput (sc : Screen) (row col : BitVec 3) (s : State) : Outcome :=
  let p := cellOffset s sc row.toNat col.toNat
  if InBoundsPixel s sc row.toNat col.toNat then
    if hitsWindow s.cfg (pixelWrites s sc p) then .refused .windowOverlap
    else .next { s.latchOffset p with seq := .drawing sc none (pixelWrites s sc p) }
  else .next (s.raise .boundsFault (encode (.pxput sc row col)))

/-- GLYPH begun: the extent check of R144, the scan counter at (0, 0) (spec/10_state.md R31). -/
def beginGlyph (sc : Screen) (char : Byte) (s : State) : Outcome :=
  if InBoundsGlyph s sc then
    if hitsWindow s.cfg (glyphWrites s sc char) then .refused .windowOverlap
    else .next { s with seq := .drawing sc (some (char, Scan.first)) [] }
  else .next (s.raise .boundsFault (encode (.glyph sc char)))

/-- An accepted command at the stepwise grain: the two drawing commands are begun, every other command has no inside that
another agent could see and is carried out. -/
def beginExec (i : Instr) (s : State) : Outcome :=
  match i with
  | .nop => exec .nop s
  | .pxaddr sc row col => exec (.pxaddr sc row col) s
  | .pxput sc row col => beginPxput sc row col s
  | .glyph sc char => beginGlyph sc char s
  | .fprate rate => exec (.fprate rate) s
  | .fpstart => exec .fpstart s
  | .fpwait => exec .fpwait s
  | .fpstop => exec .fpstop s

/-- The rest of a scan after the position `p` was examined. -/
def scanRest (char : Byte) (p : Scan) : Option (Byte × Scan) := p.next.map fun q => (char, q)

/-- One step of the sequencer inside a drawing command: the next byte of the current pixel if one is left; else the next bit
examined and the scan counter advanced (R143, spec/10_state.md R31); else the command is done. -/
def State.drawStep (s : State) : State :=
  match s.seq with
  | .idle => s
  | .waiting => s
  | .drawing sc scan (w :: ws) => { s.writeByte w with seq := .drawing sc scan ws }
  | .drawing _ none [] => { s with seq := .idle }
  | .drawing sc (some (char, p)) [] =>
    if scanBit s.cfg char p then
      { s.latchOffset (scanOffset s sc p) with
        seq := .drawing sc (scanRest char p) (pixelWrites s sc (scanOffset s sc p)) }
    else { s with seq := .drawing sc (scanRest char p) [] }

/-- An accepted command at a grain. -/
def runCommand : Grain → Instr → State → Outcome
  | .whole, i, s => exec i s
  | .stepwise, i, s => beginExec i s

end Sys2Proof.Machine
end

