-- ==== Sys2Proof/Machine/Bus.lean ====
section
/-! DEFINITION. The register window as the host sees it (spec/10_state.md R36 to R47): which register an offset names, what a
read returns, what a write does, the acceptance of a command (R37), and the host's own stores to bus memory. -/

namespace Sys2Proof.Machine

/-- The byte offset of a register in the window (R36). -/
def regOffset : Reg → Nat
  | .cmd => 0x00
  | .status => 0x04
  | .posX => 0x08
  | .posY => 0x0C
  | .color => 0x10
  | .offset => 0x14
  | .fbdraw0 => 0x18
  | .fbdraw1 => 0x1C
  | .rate => 0x20
  | .delay => 0x24
  | .tick => 0x28
  | .swapCnt => 0x2C
  | .errInfo => 0x30

/-- The register at a byte offset of the window; none at the reserved offsets and inside a word (R36, R47). -/
def regAt : Nat → Option Reg
  | 0x00 => some .cmd
  | 0x04 => some .status
  | 0x08 => some .posX
  | 0x0C => some .posY
  | 0x10 => some .color
  | 0x14 => some .offset
  | 0x18 => some .fbdraw0
  | 0x1C => some .fbdraw1
  | 0x20 => some .rate
  | 0x24 => some .delay
  | 0x28 => some .tick
  | 0x2C => some .swapCnt
  | 0x30 => some .errInfo
  | _ => none

/-- The bus address of a register, BASE + offset (R36, spec/30_encoding.md R111). -/
def regAddr (c : Config) (r : Reg) : Word := BitVec.ofNat 32 (c.base + regOffset r)

/-- What the host reads from a register: CMD reads 0, a narrower register is zero-extended (R36 to R47). -/
def State.readReg (s : State) : Reg → Word
  | .cmd => 0
  | .status => statusWord s
  | .posX => s.posX
  | .posY => s.posY
  | .color => s.color
  | .offset => s.offset
  | .fbdraw0 => s.fbdraw0
  | .fbdraw1 => s.fbdraw1
  | .rate => s.rate.setWidth 32
  | .delay => s.delay
  | .tick => s.tick
  | .swapCnt => s.swapCnt
  | .errInfo => s.errInfo

/-- A host write to a register other than CMD: the read/write registers take the value, TICK its low TW bits (R42), and the
read-only registers do not change (R47). A write to CMD is `acceptCommand`; here it stores nothing. -/
def State.writeReg (s : State) (r : Reg) (v : Word) : State :=
  match r with
  | .cmd => s
  | .status => s
  | .posX => { s with posX := v }
  | .posY => { s with posY := v }
  | .color => { s with color := v }
  | .offset => s
  | .fbdraw0 => { s with fbdraw0 := v }
  | .fbdraw1 => { s with fbdraw1 := v }
  | .rate => s
  | .delay => s
  | .tick => { s with tick := tickTrunc s.cfg v.toNat }
  | .swapCnt => s
  | .errInfo => s

/-- A word written to CMD (R37): dropped while ERR = 1; otherwise accepted, decoded and carried out, an illegal word raising
IllegalCommand and nothing else (spec/30_encoding.md R96, R97; the order is spec/60_exceptions.md R241). -/
def acceptCommand (g : Grain) (w : Word) (s : State) : Outcome :=
  if s.err then .next s
  else
    match decode w with
    | .command i => runCommand g i (s.record (.cmd w))
    | .illegal _ => .next ((s.record (.cmd w)).raise .illegalCommand w)

/-- Why an access is refused, or none if the window supports it (R47, spec/93 U4). -/
def accessRefusal (c : Config) (a : Access) : Option Refusal :=
  if ¬ a.ToWindow c then some .outsideWindow
  else if ¬ a.WordWide then some .accessWidth
  else if ¬ a.Aligned then some .misaligned
  else if ¬ a.NotReserved c then some .reservedOffset
  else none

/-- A supported access to the register `r`: a read has no effect but its record, a write to CMD runs a command, every other
write only stores (R47, spec/20_memory.md R68). -/
def regAccess (g : Grain) (r : Reg) (a : Access) (s : State) : Outcome :=
  match a with
  | .read _ _ => .next (s.record (.regRead (regOffset r) (s.readReg r)))
  | .write _ _ v =>
    match r with
    | .cmd => acceptCommand g v (s.record (.regWrite (regOffset .cmd) v))
    | r => .next ((s.writeReg r v).record (.regWrite (regOffset r) v))

/-- A host access to the window. -/
def hostAccess (g : Grain) (a : Access) (s : State) : Outcome :=
  match accessRefusal s.cfg a with
  | some why => .refused why
  | none =>
    match regAt (a.addr.toNat - s.cfg.base) with
    | some r => regAccess g r a s
    | none => .refused .reservedOffset

/-- A byte the host stores to bus memory itself (spec/43_host_sequences.md R222); in the window it would be an 8-bit register
access, which is refused (R47). Where the bus has no memory the byte is lost: DESIGN CHOICE, R236 of
spec/60_exceptions.md says it of the block's bytes only (assumption log 18). -/
def hostStore (a : Word) (b : Byte) (s : State) : Outcome :=
  if InWindow s.cfg a then .refused .accessWidth
  else .next { s with memory := s.memory.store s.cfg a b }

end Sys2Proof.Machine
end

