-- ==== Sys2Proof/Machine/Agents.lean ====
section
/-! DEFINITION. Who moves next (spec/10_state.md R30, spec/42_frame_pacer.md R170, R171, R175, spec/70 R291). The order of the
inputs is the schedule. While a command executes the host is stalled: its next access waits in the inputs, and only the
sequencer, the ticker and the reset input move. -/

namespace Sys2Proof.Machine

/-- A step while the sequencer is idle. With no input left only the ticker has a step, and none while RUN = 0: the block
then does nothing (R272, R175). An idle sequencer has no step and lets its turn pass. DESIGN CHOICE: the reset input is one
instant (assumption log 21). -/
def idleStep (s : State) : Outcome :=
  match s.inputs with
  | [] => .next s.ticked
  | .tick :: rest => .next ({ s with inputs := rest } : State).ticked
  | .reset :: rest => .next ({ s with inputs := rest } : State).resetBlock
  | .sequencer :: rest => .next { s with inputs := rest }
  | .access g a :: rest => hostAccess g a { s with inputs := rest }
  | .store a b :: rest => hostStore a b { s with inputs := rest }

/-- The only agent left to move while an FPWAIT is held and not reached: the ticker if RUN = 1; else nothing is enabled and
the command is stuck (R171). -/
def heldStep (s : State) : Outcome := if s.run then .next s.ticked else .fault .stuckWait

/-- A step while an FPWAIT is held: it completes at the first moment REACHED is 1 (R170); otherwise the reset input or the
ticker moves, the host's accesses wait, and the held sequencer lets its turn pass. That the completion comes before a reset
that is next is the model's choice (assumption log 9). -/
def waitingStep (s : State) : Outcome :=
  if Reached s then .next s.completeWait
  else
    match s.inputs with
    | [] => heldStep s
    | .tick :: rest => .next ({ s with inputs := rest } : State).ticked
    | .reset :: rest => .next ({ s with inputs := rest } : State).resetBlock
    | .sequencer :: rest => .next { s with inputs := rest }
    | .access _ _ :: _ => heldStep s
    | .store _ _ :: _ => heldStep s

/-- A step while a drawing command is part way: the tick, the reset or the sequencer's turn that the schedule puts here; with
none of these next the sequencer moves, since the host is stalled. -/
def drawingStep (s : State) : Outcome :=
  match s.inputs with
  | [] => .next s.drawStep
  | .tick :: rest => .next ({ s with inputs := rest } : State).ticked
  | .reset :: rest => .next ({ s with inputs := rest } : State).resetBlock
  | .sequencer :: rest => .next ({ s with inputs := rest } : State).drawStep
  | .access _ _ :: _ => .next s.drawStep
  | .store _ _ :: _ => .next s.drawStep

/-- One step of the machine, by the sequencer's condition. -/
def agentStep (s : State) : Outcome :=
  match s.seq with
  | .idle => idleStep s
  | .waiting => waitingStep s
  | .drawing _ _ _ => drawingStep s

/-- The host's write of a word to CMD, as an input (spec/30_encoding.md R111). -/
def commandInput (c : Config) (g : Grain) (w : Word) : Input := .access g (.write (regAddr c .cmd) 4 w)

end Sys2Proof.Machine
end

