-- ==== Sys2Proof/Machine/Step.lean ====
section
/-! DEFINITION. The step of the machine, and how one command word is put where the machine takes its next one: the block has
no instruction memory (spec/10_state.md R30), its next command is the host's next write to CMD. -/

namespace Sys2Proof.Machine

/-- One step of the machine (Machine/Agents.lean). -/
def step (s : State) : Host.Outcome State Fault Refusal := agentStep s

/-- The state with the host's write of this command word to CMD as the next input; a command is one 32-bit word
(spec/30_encoding.md R90). Nothing else changes: of an idle block with ERR = 0 the very next step accepts and runs it. -/
def State.withFetchWord (s : State) (nbits w : Nat) : State :=
  { s with inputs := commandInput s.cfg .whole (BitVec.ofNat 32 (w % 2 ^ nbits)) :: s.inputs }

end Sys2Proof.Machine
end

