-- ==== Sys2Proof/Machine/HostSequences.lean ====
section
/-! DEFINITION. The software that drives the block (spec/43_host_sequences.md), which runs on the host: each call as the
list of inputs it amounts to. spec/00_scope.md R4 puts it outside the block; no step of the machine uses this file. Where the
document gives a call no result (spec/93 U9, N9, N15) the answer is none: the call is refused. DESIGN CHOICE: at which grain
the commands of a call run is left open (spec/42_frame_pacer.md R175, spec/70_reset_and_hazards.md R291), and every call takes
one grain for all its commands as an argument (assumption log 19). The lists hold the host's own moves; a run with ticks, resets
and turns of the sequencer in between is such a list with those put in. -/

namespace Sys2Proof.Machine

/-- `WR name, value` (spec/30_encoding.md R111). The grain matters only to a write of CMD, and is the caller's: DESIGN CHOICE,
one grain for a whole call (assumption log 19). -/
def wr (c : Config) (g : Grain) (r : Reg) (v : Word) : Input := .access g (.write (regAddr c r) 4 v)

/-- A command line: `WR CMD, word` (R111). -/
def wrCommand (c : Config) (g : Grain) (i : Instr) : Input := wr c g .cmd (encode i)

/-! ### DRAWGLYPH: R190 -/

/-- `DRAWGLYPH(s, posX, posY, color, c)` (R190). R190 lets the host omit a WR whose register already holds the value: DESIGN
CHOICE, none is omitted (assumption log 22). -/
def drawGlyph (c : Config) (g : Grain) (sc : Screen) (posX posY color : Word) (char : Byte) : List Input :=
  [wr c g .posX posX, wr c g .posY posY, wr c g .color color, wrCommand c g (.glyph sc char)]

/-! ### DRAWSTRING: R200 to R206 -/

/-- A DRAWGLYPH that the layout asks for: a character and its place. -/
structure Placement where
  char : Byte
  x : Nat
  y : Nat
deriving DecidableEq, Repr

/-- The two variables of the layout: posY and the column counter (R200). -/
structure Cursor where
  posY : Nat
  column : Nat
deriving DecidableEq, Repr

/-- The usable columns, `(W[s] - posX) / SPACING_X` (R201, R204). -/
def usableColumns (c : Config) (sc : Screen) (posX : Nat) : Nat := (c.width sc - posX) / c.spacingX

/-- One character of the text (R201 to R205): the new cursor and the glyph to draw, if any. A division by a SPACING_X of 0 is
not defined (spec/00_scope.md R12). -/
def layoutChar (c : Config) (sc : Screen) (posX : Nat) (u : Cursor) (ch : Byte) : Option (Cursor × Option Placement) :=
  if ch = 0x0A then some (⟨u.posY + c.spacingY, 0⟩, none)
  else if ch = 0x09 then some (⟨u.posY, u.column + 2⟩, none)
  else if c.spacingX = 0 then none
  else if usableColumns c sc posX ≤ u.column then
    if ch = 0x20 then some (⟨u.posY + c.spacingY, 1⟩, none)
    else some (⟨u.posY + c.spacingY, 2⟩, some ⟨ch, posX + 1 * c.spacingX, u.posY + c.spacingY⟩)
  else some (⟨u.posY, u.column + 1⟩, some ⟨ch, posX + u.column * c.spacingX, u.posY⟩)

/-- The layout of a text, first character to last (R201): the glyphs drawn, in order, and the final posY. -/
def layoutText (c : Config) (sc : Screen) (posX : Nat) : Cursor → List Byte → Option (List Placement × Nat)
  | u, [] => some ([], u.posY)
  | u, ch :: text =>
    match layoutChar c sc posX u ch with
    | none => none
    | some (v, drawn) =>
      match layoutText c sc posX v text with
      | none => none
      | some (ps, y) => some (drawn.toList ++ ps, y)

/-- A coordinate of the layout as the host writes it to a 32-bit register. The layout's numbers grow without limit, and a glyph
off the screen ends in a BoundsFault (R208): DESIGN CHOICE, a number beyond 32 bits is written as the largest one, which is off
every screen (assumption log 13). -/
def coordinateWord (n : Nat) : Word := BitVec.ofNat 32 (min n (2 ^ 32 - 1))

/-- The accesses of a placed glyph. -/
def placementInputs (c : Config) (g : Grain) (sc : Screen) (color : Word) (p : Placement) : List Input :=
  drawGlyph c g sc (coordinateWord p.x) (coordinateWord p.y) color p.char

/-- `DRAWSTRING(s, posX, posY, color, text) -> newPosY` (R200, R201). Refused for `posX > W[s]` (spec/93 U9). -/
def drawString (c : Config) (g : Grain) (sc : Screen) (posX posY : Nat) (color : Word) (text : List Byte) :
    Option (List Input × Nat) :=
  if c.width sc < posX then none
  else
    match layoutText c sc posX ⟨posY, 0⟩ text with
    | none => none
    | some (ps, y) => some (ps.flatMap (placementInputs c g sc color), y)

/-! ### DRAWFORMATTED: R210 to R212 -/

/-- The decimal digits of a number as character codes, most significant first; `fuel` bounds their count. -/
def decimalDigits : Nat → Nat → List Byte
  | 0, _ => []
  | fuel + 1, n =>
    if n < 10 then [BitVec.ofNat 8 (0x30 + n)]
    else decimalDigits fuel (n / 10) ++ [BitVec.ofNat 8 (0x30 + n % 10)]

/-- Positional template substitution as far as the document gives it: `%d` stands for a decimal integer (R210); any other
conversion, a missing argument or an argument left over is refused (N9). The flag says that the last character was `%`. -/
def formatTemplate : Bool → List Byte → List Nat → Option (List Byte)
  | false, [], [] => some []
  | true, [], _ => none
  | false, [], _ :: _ => none
  | false, ch :: rest, args =>
    if ch = 0x25 then formatTemplate true rest args
    else (formatTemplate false rest args).map fun out => ch :: out
  | true, _ :: _, [] => none
  | true, ch :: rest, n :: args =>
    if ch = 0x64 then (formatTemplate false rest args).map fun out => decimalDigits (n + 1) n ++ out
    else none

/-- `DRAWFORMATTED(s, posX, posY, color, template, args...)`: the text cut to FORMAT_MAX characters, then DRAWSTRING (R210,
R211). -/
def drawFormatted (c : Config) (g : Grain) (sc : Screen) (posX posY : Nat) (color : Word) (template : List Byte)
    (args : List Nat) : Option (List Input × Nat) :=
  match formatTemplate false template args with
  | none => none
  | some text => drawString c g sc posX posY color (text.take c.formatMax)

/-! ### PLAYSPLASH: R220 to R229 -/

/-- The host's copy of frame bytes into a framebuffer, byte for byte (R220, R222). DESIGN CHOICE: past bus address 2^32 - 1
the host's own store goes on at 0, which R220 leaves open (assumption log 20). -/
def copyFrame (target : Word) : List Byte → List Input
  | [] => []
  | b :: bytes => .store target b :: copyFrame (target + 1) bytes

/-- What Storage's reads of an opened stream give (R220, R221): the frame-rate byte, or none if that read fails, and the bytes
that the frame reads give one after another. -/
structure SplashReads where
  rate : Option Byte
  frames : List Byte
deriving DecidableEq, Repr

/-- The reads of a stream with these bytes where no read fails (R229): the rate byte first, and no rate byte in a stream of
length 0. -/
def SplashReads.ofBytes : List Byte → SplashReads
  | [] => ⟨none, []⟩
  | b :: bytes => ⟨some b, bytes⟩

/-- The frame loop (R220, R222, R223): one frame is the top screen's frame size; a full frame is followed by FPWAIT, a short
one ends the loop. `targets` are the draw-target addresses the Screen exposes, one for each read (N10: what a swap does is
not stated); none if the stream outlasts them. -/
def splashLoop (c : Config) (g : Grain) : List Word → List Byte → Option (List Input)
  | [], _ => none
  | target :: targets, bytes =>
    let frame := bytes.take (c.frameBytes .top)
    if frame.length < c.frameBytes .top then some (copyFrame target frame)
    else
      match splashLoop c g targets (bytes.drop (c.frameBytes .top)) with
      | none => none
      | some rest => some (copyFrame target frame ++ wrCommand c g .fpwait :: rest)

/-- FPRATE if the rate byte was read; else none, and RATE keeps what it holds (R221, spec/10_state.md R41). -/
def splashRate (c : Config) (g : Grain) : Option Byte → List Input
  | some b => [wrCommand c g (.fprate b)]
  | none => []

/-- `PLAYSPLASH() -> success` on what Storage gives, none if the open fails (R220, R221, R224, R226): the call's result and the
inputs. -/
def playSplash (c : Config) (g : Grain) (targets : List Word) : Option SplashReads → Option (Bool × List Input)
  | none => some (false, [])
  | some reads => (splashLoop c g targets reads.frames).map fun frames =>
      (true, splashRate c g reads.rate ++ wrCommand c g .fpstart :: frames ++ [wrCommand c g .fpstop])

end Sys2Proof.Machine
end

