-- ==== Sys2Proof/Safety.lean ====
section
/-! DEFINITION. What counts as a safe state and a good run, in the terms the statements use: the invariant of the machine,
the end of a run (spec/70_reset_and_hazards.md R292), counting ticks in the history (spec/42_frame_pacer.md R172), and runs
of commands and of steps. -/

namespace Sys2Proof.Machine

/-! ### The invariant -/

/-- The bytes a GLYPH still has to write from a position of the scan counter on. -/
def scanWritesFrom (s : State) (sc : Screen) (char : Byte) (p : Scan) : List ByteWrite :=
  ((scanFrom 64 p).filter (scanBit s.cfg char)).flatMap fun q => pixelWrites s sc (scanOffset s sc q)

/-- What a drawing command that is part way may still do: nothing it will write lies in the register window, and a GLYPH's
extent is inside the screen. -/
def drawingOk (s : State) : Bool :=
  match s.seq with
  | .idle => true
  | .waiting => true
  | .drawing _ none pending => !hitsWindow s.cfg pending
  | .drawing sc (some (char, p)) pending =>
    decide (InBoundsGlyph s sc) && !hitsWindow s.cfg (pending ++ scanWritesFrom s sc char p)

/-- Bus memory is in canonical form, no byte of the register window is memory (spec/20_memory.md R71), and no byte is held
where the bus has no memory (spec/60_exceptions.md R236). -/
abbrev State.MemoryOk (s : State) : Prop :=
  s.memory.wf ∧ ∀ x ∈ s.memory, ¬ (s.cfg.base ≤ x.1 ∧ x.1 < s.cfg.base + 64) ∧ s.cfg.hasMemory x.1 = true

/-- TICK is a TW-bit number (spec/10_state.md R42). -/
abbrev State.TickOk (s : State) : Prop := s.tick.toNat < 2 ^ s.cfg.tickBits

/-- DELAY is at most F_TICK / 1024 (spec/10_state.md R43). -/
abbrev State.DelayOk (s : State) : Prop := s.delay.toNat ≤ s.cfg.fTick / 1024

/-- OFFSET is the offset of a pixel of one of the screens: a multiple of 3 whose three bytes lie inside a framebuffer
(spec/40_pixel_writer.md R122 b, R124). -/
abbrev State.OffsetOk (s : State) : Prop :=
  s.offset.toNat % 3 = 0 ∧
    (s.offset.toNat + 2 < s.cfg.frameBytes .bottom ∨ s.offset.toNat + 2 < s.cfg.frameBytes .top)

/-- ERRCODE is 1, 2 or 3 after a fault; ERRCODE and ERRINFO are 0 before one (spec/10_state.md R35, R46,
spec/60_exceptions.md R230). -/
abbrev State.FaultOk (s : State) : Prop :=
  (s.err = true → s.errCode = 1 ∨ s.errCode = 2 ∨ s.errCode = 3) ∧ (s.err = false → s.errCode = 0 ∧ s.errInfo = 0)

/-- No command is executing after a fault (spec/60_exceptions.md R242, R243), and a drawing command part way is inside its
checks. -/
abbrev State.SeqOk (s : State) : Prop := (s.err = true → s.seq = .idle) ∧ drawingOk s = true

/-- The invariant of the machine. -/
abbrev State.Inv (s : State) : Prop :=
  s.cfg.Wf ∧ s.MemoryOk ∧ s.TickOk ∧ s.DelayOk ∧ s.OffsetOk ∧ s.FaultOk ∧ s.SeqOk

/-! ### Illegal words -/

/-- The word, written to CMD, raises IllegalCommand and does nothing else (spec/30_encoding.md R97, spec/60_exceptions.md
R242): so says its acceptance, and so says the step at the host's write of it. That an illegal word has a Cmd
record (assumption log 11), and that it lies after RegWrite and before Fault (assumption log 4), is the model's. -/
abbrev RaisesIllegal (g : Grain) (w : Word) (s : State) : Prop :=
  acceptCommand g w s = .next { s with
    err := true, errCode := 1, errInfo := w, history := s.history ++ [.cmd w, .fault 1 w] } ∧
  ∀ rest : List Input, s.cfg.Wf → s.seq = .idle → s.inputs = commandInput s.cfg g w :: rest →
    step s = .next { s with
      err := true, errCode := 1, errInfo := w, inputs := rest,
      history := s.history ++ [.regWrite 0 w, .cmd w, .fault 1 w] }

/-! ### Ends of runs: spec/70_reset_and_hazards.md R292 -/

/-- The run has ended well: the last access has completed, the sequencer is idle, ERR = 0. -/
abbrev State.EndedWell (s : State) : Prop := s.inputs = [] ∧ s.seq = .idle ∧ s.err = false

/-- The access in progress never completes: an FPWAIT is held, TICK is short of DELAY, and either the ticker is stopped or no
value of TICK reaches DELAY (spec/42_frame_pacer.md R171). -/
abbrev State.Stuck (s : State) : Prop :=
  s.seq = .waiting ∧ s.tick.toNat < s.delay.toNat ∧ (s.run = false ∨ 2 ^ s.cfg.tickBits ≤ s.delay.toNat)

/-- The run has gone wrong: a fault was raised, or an access never completes. -/
abbrev State.GoneWrong (s : State) : Prop := s.err = true ∨ s.Stuck

/-! ### The host's placement duty: spec/20_memory.md R70 -/

/-- The framebuffer of the screen lies wholly below 2^32 (R70, R276). -/
abbrev State.Placed (s : State) (sc : Screen) : Prop := (s.fbdraw sc).toNat + s.cfg.frameBytes sc ≤ 2 ^ 32

/-- The bus address lies in the draw-target framebuffer of the screen (spec/10_state.md R50). -/
abbrev State.InFrame (s : State) (sc : Screen) (a : Word) : Prop :=
  (s.fbdraw sc).toNat ≤ a.toNat ∧ a.toNat < (s.fbdraw sc).toNat + s.cfg.frameBytes sc

/-- The host has placed the framebuffer of the screen clear of the register window and where the bus has memory
(spec/20_memory.md R71, spec/60_exceptions.md R236). -/
abbrev State.FrameUsable (s : State) (sc : Screen) : Prop :=
  ∀ a : Word, s.InFrame sc a → ¬ InWindow s.cfg a ∧ s.cfg.hasMemory a.toNat = true

/-! ### Counting ticks: spec/42_frame_pacer.md R172 -/

/-- The Tick records of a stretch of history. -/
def tickCount (h : List Record) : Nat := h.count .tick

/-- The next input is a host write to TICK, which the pacing guarantee excludes (R172, R286). -/
def writesTick (c : Config) : List Input → Bool
  | .access _ (.write a _ _) :: _ => decide (a = regAddr c .tick)
  | _ => false

/-- Since the history had `n` records, at least as many ticks have been recorded as TICK now shows. -/
abbrev State.Paced (s : State) (n : Nat) : Prop := n ≤ s.history.length ∧ s.tick.toNat ≤ tickCount (s.history.drop n)

/-! ### Runs -/

/-- Commands one after another, stopping at the first fault or refusal of the model. -/
def execAll : List Instr → State → Outcome
  | [], s => .next s
  | i :: is, s =>
    match exec i s with
    | .next t => execAll is t
    | .fault f => .fault f
    | .refused r => .refused r

/-- Steps one after another, stopping at the first fault or refusal of the model. -/
def runSteps : Nat → State → Outcome
  | 0, s => .next s
  | n + 1, s =>
    match step s with
    | .next t => runSteps n t
    | .fault f => .fault f
    | .refused r => .refused r

/-- The next input is the reset input. -/
def resetNext : List Input → Bool
  | .reset :: _ => true
  | _ => false

/-- The next input is a tick, a reset or the sequencer's turn: the schedule names who moves while the host is stalled. -/
def agentNext : List Input → Bool
  | .reset :: _ => true
  | .tick :: _ => true
  | .sequencer :: _ => true
  | _ => false

end Sys2Proof.Machine
end

