-- ==== Sys2Proof/Laws/State.lean ====
section
/-! SUPPORT. The state record: for each named update one lemma for each field, so that no proof unfolds an update. -/

namespace Sys2Proof.Machine

/-! ### record -/

@[simp] theorem State.record_cfg (s : State) (r : Record) : (s.record r).cfg = s.cfg := rfl
@[simp] theorem State.record_posX (s : State) (r : Record) : (s.record r).posX = s.posX := rfl
@[simp] theorem State.record_posY (s : State) (r : Record) : (s.record r).posY = s.posY := rfl
@[simp] theorem State.record_color (s : State) (r : Record) : (s.record r).color = s.color := rfl
@[simp] theorem State.record_offset (s : State) (r : Record) : (s.record r).offset = s.offset := rfl
@[simp] theorem State.record_fbdraw0 (s : State) (r : Record) : (s.record r).fbdraw0 = s.fbdraw0 := rfl
@[simp] theorem State.record_fbdraw1 (s : State) (r : Record) : (s.record r).fbdraw1 = s.fbdraw1 := rfl
@[simp] theorem State.record_rate (s : State) (r : Record) : (s.record r).rate = s.rate := rfl
@[simp] theorem State.record_delay (s : State) (r : Record) : (s.record r).delay = s.delay := rfl
@[simp] theorem State.record_tick (s : State) (r : Record) : (s.record r).tick = s.tick := rfl
@[simp] theorem State.record_run (s : State) (r : Record) : (s.record r).run = s.run := rfl
@[simp] theorem State.record_swapCnt (s : State) (r : Record) : (s.record r).swapCnt = s.swapCnt := rfl
@[simp] theorem State.record_err (s : State) (r : Record) : (s.record r).err = s.err := rfl
@[simp] theorem State.record_errCode (s : State) (r : Record) : (s.record r).errCode = s.errCode := rfl
@[simp] theorem State.record_errInfo (s : State) (r : Record) : (s.record r).errInfo = s.errInfo := rfl
@[simp] theorem State.record_seq (s : State) (r : Record) : (s.record r).seq = s.seq := rfl
@[simp] theorem State.record_memory (s : State) (r : Record) : (s.record r).memory = s.memory := rfl
@[simp] theorem State.record_inputs (s : State) (r : Record) : (s.record r).inputs = s.inputs := rfl
@[simp] theorem State.record_history (s : State) (r : Record) : (s.record r).history = s.history ++ [r] := rfl

/-! ### writeByte -/

@[simp] theorem State.writeByte_cfg (s : State) (w : ByteWrite) : (s.writeByte w).cfg = s.cfg := rfl
@[simp] theorem State.writeByte_posX (s : State) (w : ByteWrite) : (s.writeByte w).posX = s.posX := rfl
@[simp] theorem State.writeByte_posY (s : State) (w : ByteWrite) : (s.writeByte w).posY = s.posY := rfl
@[simp] theorem State.writeByte_color (s : State) (w : ByteWrite) : (s.writeByte w).color = s.color := rfl
@[simp] theorem State.writeByte_offset (s : State) (w : ByteWrite) : (s.writeByte w).offset = s.offset := rfl
@[simp] theorem State.writeByte_fbdraw0 (s : State) (w : ByteWrite) : (s.writeByte w).fbdraw0 = s.fbdraw0 := rfl
@[simp] theorem State.writeByte_fbdraw1 (s : State) (w : ByteWrite) : (s.writeByte w).fbdraw1 = s.fbdraw1 := rfl
@[simp] theorem State.writeByte_rate (s : State) (w : ByteWrite) : (s.writeByte w).rate = s.rate := rfl
@[simp] theorem State.writeByte_delay (s : State) (w : ByteWrite) : (s.writeByte w).delay = s.delay := rfl
@[simp] theorem State.writeByte_tick (s : State) (w : ByteWrite) : (s.writeByte w).tick = s.tick := rfl
@[simp] theorem State.writeByte_run (s : State) (w : ByteWrite) : (s.writeByte w).run = s.run := rfl
@[simp] theorem State.writeByte_swapCnt (s : State) (w : ByteWrite) : (s.writeByte w).swapCnt = s.swapCnt := rfl
@[simp] theorem State.writeByte_err (s : State) (w : ByteWrite) : (s.writeByte w).err = s.err := rfl
@[simp] theorem State.writeByte_errCode (s : State) (w : ByteWrite) : (s.writeByte w).errCode = s.errCode := rfl
@[simp] theorem State.writeByte_errInfo (s : State) (w : ByteWrite) : (s.writeByte w).errInfo = s.errInfo := rfl
@[simp] theorem State.writeByte_seq (s : State) (w : ByteWrite) : (s.writeByte w).seq = s.seq := rfl
@[simp] theorem State.writeByte_memory (s : State) (w : ByteWrite) : (s.writeByte w).memory = s.memory.store s.cfg w.1 w.2 := rfl
@[simp] theorem State.writeByte_inputs (s : State) (w : ByteWrite) : (s.writeByte w).inputs = s.inputs := rfl
@[simp] theorem State.writeByte_history (s : State) (w : ByteWrite) : (s.writeByte w).history = s.history ++ [.memWrite w.1 w.2] := rfl

/-! ### latchOffset -/

@[simp] theorem State.latchOffset_cfg (s : State) (p : Nat) : (s.latchOffset p).cfg = s.cfg := rfl
@[simp] theorem State.latchOffset_posX (s : State) (p : Nat) : (s.latchOffset p).posX = s.posX := rfl
@[simp] theorem State.latchOffset_posY (s : State) (p : Nat) : (s.latchOffset p).posY = s.posY := rfl
@[simp] theorem State.latchOffset_color (s : State) (p : Nat) : (s.latchOffset p).color = s.color := rfl
@[simp] theorem State.latchOffset_offset (s : State) (p : Nat) : (s.latchOffset p).offset = BitVec.ofNat 32 p := rfl
@[simp] theorem State.latchOffset_fbdraw0 (s : State) (p : Nat) : (s.latchOffset p).fbdraw0 = s.fbdraw0 := rfl
@[simp] theorem State.latchOffset_fbdraw1 (s : State) (p : Nat) : (s.latchOffset p).fbdraw1 = s.fbdraw1 := rfl
@[simp] theorem State.latchOffset_rate (s : State) (p : Nat) : (s.latchOffset p).rate = s.rate := rfl
@[simp] theorem State.latchOffset_delay (s : State) (p : Nat) : (s.latchOffset p).delay = s.delay := rfl
@[simp] theorem State.latchOffset_tick (s : State) (p : Nat) : (s.latchOffset p).tick = s.tick := rfl
@[simp] theorem State.latchOffset_run (s : State) (p : Nat) : (s.latchOffset p).run = s.run := rfl
@[simp] theorem State.latchOffset_swapCnt (s : State) (p : Nat) : (s.latchOffset p).swapCnt = s.swapCnt := rfl
@[simp] theorem State.latchOffset_err (s : State) (p : Nat) : (s.latchOffset p).err = s.err := rfl
@[simp] theorem State.latchOffset_errCode (s : State) (p : Nat) : (s.latchOffset p).errCode = s.errCode := rfl
@[simp] theorem State.latchOffset_errInfo (s : State) (p : Nat) : (s.latchOffset p).errInfo = s.errInfo := rfl
@[simp] theorem State.latchOffset_seq (s : State) (p : Nat) : (s.latchOffset p).seq = s.seq := rfl
@[simp] theorem State.latchOffset_memory (s : State) (p : Nat) : (s.latchOffset p).memory = s.memory := rfl
@[simp] theorem State.latchOffset_inputs (s : State) (p : Nat) : (s.latchOffset p).inputs = s.inputs := rfl
@[simp] theorem State.latchOffset_history (s : State) (p : Nat) : (s.latchOffset p).history = s.history := rfl

/-! ### raise -/

@[simp] theorem State.raise_cfg (s : State) (f : Cause) (w : Word) : (s.raise f w).cfg = s.cfg := rfl
@[simp] theorem State.raise_posX (s : State) (f : Cause) (w : Word) : (s.raise f w).posX = s.posX := rfl
@[simp] theorem State.raise_posY (s : State) (f : Cause) (w : Word) : (s.raise f w).posY = s.posY := rfl
@[simp] theorem State.raise_color (s : State) (f : Cause) (w : Word) : (s.raise f w).color = s.color := rfl
@[simp] theorem State.raise_offset (s : State) (f : Cause) (w : Word) : (s.raise f w).offset = s.offset := rfl
@[simp] theorem State.raise_fbdraw0 (s : State) (f : Cause) (w : Word) : (s.raise f w).fbdraw0 = s.fbdraw0 := rfl
@[simp] theorem State.raise_fbdraw1 (s : State) (f : Cause) (w : Word) : (s.raise f w).fbdraw1 = s.fbdraw1 := rfl
@[simp] theorem State.raise_rate (s : State) (f : Cause) (w : Word) : (s.raise f w).rate = s.rate := rfl
@[simp] theorem State.raise_delay (s : State) (f : Cause) (w : Word) : (s.raise f w).delay = s.delay := rfl
@[simp] theorem State.raise_tick (s : State) (f : Cause) (w : Word) : (s.raise f w).tick = s.tick := rfl
@[simp] theorem State.raise_run (s : State) (f : Cause) (w : Word) : (s.raise f w).run = s.run := rfl
@[simp] theorem State.raise_swapCnt (s : State) (f : Cause) (w : Word) : (s.raise f w).swapCnt = s.swapCnt := rfl
@[simp] theorem State.raise_err (s : State) (f : Cause) (w : Word) : (s.raise f w).err = true := rfl
@[simp] theorem State.raise_errCode (s : State) (f : Cause) (w : Word) : (s.raise f w).errCode = f.code := rfl
@[simp] theorem State.raise_errInfo (s : State) (f : Cause) (w : Word) : (s.raise f w).errInfo = w := rfl
@[simp] theorem State.raise_seq (s : State) (f : Cause) (w : Word) : (s.raise f w).seq = s.seq := rfl
@[simp] theorem State.raise_memory (s : State) (f : Cause) (w : Word) : (s.raise f w).memory = s.memory := rfl
@[simp] theorem State.raise_inputs (s : State) (f : Cause) (w : Word) : (s.raise f w).inputs = s.inputs := rfl
@[simp] theorem State.raise_history (s : State) (f : Cause) (w : Word) : (s.raise f w).history = s.history ++ [.fault f.code w] := rfl

/-! ### completeWait -/

@[simp] theorem State.completeWait_cfg (s : State) : (s.completeWait).cfg = s.cfg := rfl
@[simp] theorem State.completeWait_posX (s : State) : (s.completeWait).posX = s.posX := rfl
@[simp] theorem State.completeWait_posY (s : State) : (s.completeWait).posY = s.posY := rfl
@[simp] theorem State.completeWait_color (s : State) : (s.completeWait).color = s.color := rfl
@[simp] theorem State.completeWait_offset (s : State) : (s.completeWait).offset = s.offset := rfl
@[simp] theorem State.completeWait_fbdraw0 (s : State) : (s.completeWait).fbdraw0 = s.fbdraw0 := rfl
@[simp] theorem State.completeWait_fbdraw1 (s : State) : (s.completeWait).fbdraw1 = s.fbdraw1 := rfl
@[simp] theorem State.completeWait_rate (s : State) : (s.completeWait).rate = s.rate := rfl
@[simp] theorem State.completeWait_delay (s : State) : (s.completeWait).delay = s.delay := rfl
@[simp] theorem State.completeWait_tick (s : State) : (s.completeWait).tick = 0 := rfl
@[simp] theorem State.completeWait_run (s : State) : (s.completeWait).run = s.run := rfl
@[simp] theorem State.completeWait_swapCnt (s : State) : (s.completeWait).swapCnt = s.swapCnt + 1 := rfl
@[simp] theorem State.completeWait_err (s : State) : (s.completeWait).err = s.err := rfl
@[simp] theorem State.completeWait_errCode (s : State) : (s.completeWait).errCode = s.errCode := rfl
@[simp] theorem State.completeWait_errInfo (s : State) : (s.completeWait).errInfo = s.errInfo := rfl
@[simp] theorem State.completeWait_seq (s : State) : (s.completeWait).seq = .idle := rfl
@[simp] theorem State.completeWait_memory (s : State) : (s.completeWait).memory = s.memory := rfl
@[simp] theorem State.completeWait_inputs (s : State) : (s.completeWait).inputs = s.inputs := rfl
@[simp] theorem State.completeWait_history (s : State) : (s.completeWait).history = s.history ++ [.swapReq] := rfl

/-! ### startTimer -/

@[simp] theorem State.startTimer_cfg (s : State) : (s.startTimer).cfg = s.cfg := rfl
@[simp] theorem State.startTimer_posX (s : State) : (s.startTimer).posX = s.posX := rfl
@[simp] theorem State.startTimer_posY (s : State) : (s.startTimer).posY = s.posY := rfl
@[simp] theorem State.startTimer_color (s : State) : (s.startTimer).color = s.color := rfl
@[simp] theorem State.startTimer_offset (s : State) : (s.startTimer).offset = s.offset := rfl
@[simp] theorem State.startTimer_fbdraw0 (s : State) : (s.startTimer).fbdraw0 = s.fbdraw0 := rfl
@[simp] theorem State.startTimer_fbdraw1 (s : State) : (s.startTimer).fbdraw1 = s.fbdraw1 := rfl
@[simp] theorem State.startTimer_rate (s : State) : (s.startTimer).rate = s.rate := rfl
@[simp] theorem State.startTimer_delay (s : State) : (s.startTimer).delay = BitVec.ofNat 32 (pacerDelay s.cfg.fTick s.rate.toNat) := rfl
@[simp] theorem State.startTimer_tick (s : State) : (s.startTimer).tick = 0 := rfl
@[simp] theorem State.startTimer_run (s : State) : (s.startTimer).run = true := rfl
@[simp] theorem State.startTimer_swapCnt (s : State) : (s.startTimer).swapCnt = s.swapCnt := rfl
@[simp] theorem State.startTimer_err (s : State) : (s.startTimer).err = s.err := rfl
@[simp] theorem State.startTimer_errCode (s : State) : (s.startTimer).errCode = s.errCode := rfl
@[simp] theorem State.startTimer_errInfo (s : State) : (s.startTimer).errInfo = s.errInfo := rfl
@[simp] theorem State.startTimer_seq (s : State) : (s.startTimer).seq = s.seq := rfl
@[simp] theorem State.startTimer_memory (s : State) : (s.startTimer).memory = s.memory := rfl
@[simp] theorem State.startTimer_inputs (s : State) : (s.startTimer).inputs = s.inputs := rfl
@[simp] theorem State.startTimer_history (s : State) : (s.startTimer).history = s.history := rfl

/-! ### resetBlock -/

@[simp] theorem State.resetBlock_cfg (s : State) : (s.resetBlock).cfg = s.cfg := rfl
@[simp] theorem State.resetBlock_posX (s : State) : (s.resetBlock).posX = 0 := rfl
@[simp] theorem State.resetBlock_posY (s : State) : (s.resetBlock).posY = 0 := rfl
@[simp] theorem State.resetBlock_color (s : State) : (s.resetBlock).color = 0 := rfl
@[simp] theorem State.resetBlock_offset (s : State) : (s.resetBlock).offset = 0 := rfl
@[simp] theorem State.resetBlock_fbdraw0 (s : State) : (s.resetBlock).fbdraw0 = 0 := rfl
@[simp] theorem State.resetBlock_fbdraw1 (s : State) : (s.resetBlock).fbdraw1 = 0 := rfl
@[simp] theorem State.resetBlock_rate (s : State) : (s.resetBlock).rate = s.cfg.defaultRate := rfl
@[simp] theorem State.resetBlock_delay (s : State) : (s.resetBlock).delay = 0 := rfl
@[simp] theorem State.resetBlock_tick (s : State) : (s.resetBlock).tick = 0 := rfl
@[simp] theorem State.resetBlock_run (s : State) : (s.resetBlock).run = false := rfl
@[simp] theorem State.resetBlock_swapCnt (s : State) : (s.resetBlock).swapCnt = 0 := rfl
@[simp] theorem State.resetBlock_err (s : State) : (s.resetBlock).err = false := rfl
@[simp] theorem State.resetBlock_errCode (s : State) : (s.resetBlock).errCode = 0 := rfl
@[simp] theorem State.resetBlock_errInfo (s : State) : (s.resetBlock).errInfo = 0 := rfl
@[simp] theorem State.resetBlock_seq (s : State) : (s.resetBlock).seq = .idle := rfl
@[simp] theorem State.resetBlock_memory (s : State) : (s.resetBlock).memory = s.memory := rfl
@[simp] theorem State.resetBlock_inputs (s : State) : (s.resetBlock).inputs = s.inputs := rfl
@[simp] theorem State.resetBlock_history (s : State) : (s.resetBlock).history = s.history := rfl

/-! ### ticked -/

@[simp] theorem State.ticked_cfg (s : State) : s.ticked.cfg = s.cfg := by
  unfold State.ticked; split <;> rfl
@[simp] theorem State.ticked_posX (s : State) : s.ticked.posX = s.posX := by
  unfold State.ticked; split <;> rfl
@[simp] theorem State.ticked_posY (s : State) : s.ticked.posY = s.posY := by
  unfold State.ticked; split <;> rfl
@[simp] theorem State.ticked_color (s : State) : s.ticked.color = s.color := by
  unfold State.ticked; split <;> rfl
@[simp] theorem State.ticked_offset (s : State) : s.ticked.offset = s.offset := by
  unfold State.ticked; split <;> rfl
@[simp] theorem State.ticked_fbdraw0 (s : State) : s.ticked.fbdraw0 = s.fbdraw0 := by
  unfold State.ticked; split <;> rfl
@[simp] theorem State.ticked_fbdraw1 (s : State) : s.ticked.fbdraw1 = s.fbdraw1 := by
  unfold State.ticked; split <;> rfl
@[simp] theorem State.ticked_rate (s : State) : s.ticked.rate = s.rate := by
  unfold State.ticked; split <;> rfl
@[simp] theorem State.ticked_delay (s : State) : s.ticked.delay = s.delay := by
  unfold State.ticked; split <;> rfl
@[simp] theorem State.ticked_run (s : State) : s.ticked.run = s.run := by
  unfold State.ticked; split <;> rfl
@[simp] theorem State.ticked_swapCnt (s : State) : s.ticked.swapCnt = s.swapCnt := by
  unfold State.ticked; split <;> rfl
@[simp] theorem State.ticked_err (s : State) : s.ticked.err = s.err := by
  unfold State.ticked; split <;> rfl
@[simp] theorem State.ticked_errCode (s : State) : s.ticked.errCode = s.errCode := by
  unfold State.ticked; split <;> rfl
@[simp] theorem State.ticked_errInfo (s : State) : s.ticked.errInfo = s.errInfo := by
  unfold State.ticked; split <;> rfl
@[simp] theorem State.ticked_seq (s : State) : s.ticked.seq = s.seq := by
  unfold State.ticked; split <;> rfl
@[simp] theorem State.ticked_memory (s : State) : s.ticked.memory = s.memory := by
  unfold State.ticked; split <;> rfl
@[simp] theorem State.ticked_inputs (s : State) : s.ticked.inputs = s.inputs := by
  unfold State.ticked; split <;> rfl

theorem State.ticked_of_run (s : State) (h : s.run = true) :
    s.ticked = { s with tick := tickTrunc s.cfg (s.tick.toNat + 1), history := s.history ++ [.tick] } := by
  simp [State.ticked, h]

theorem State.ticked_of_stopped (s : State) (h : s.run = false) : s.ticked = s := by
  simp [State.ticked, h]

/-! ### writeBytes -/

@[simp] theorem State.writeBytes_nil (s : State) : s.writeBytes [] = s := rfl

@[simp] theorem State.writeBytes_cons (s : State) (w : ByteWrite) (ws : List ByteWrite) :
    s.writeBytes (w :: ws) = (s.writeByte w).writeBytes ws := rfl

theorem State.writeBytes_append (s : State) (v w : List ByteWrite) :
    s.writeBytes (v ++ w) = (s.writeBytes v).writeBytes w := by
  simp [State.writeBytes, List.foldl_append]

@[simp] theorem State.writeBytes_cfg (s : State) (ws : List ByteWrite) : (s.writeBytes ws).cfg = s.cfg := by
  induction ws generalizing s with
  | nil => rfl
  | cons w ws ih => simp [ih]
@[simp] theorem State.writeBytes_posX (s : State) (ws : List ByteWrite) : (s.writeBytes ws).posX = s.posX := by
  induction ws generalizing s with
  | nil => rfl
  | cons w ws ih => simp [ih]
@[simp] theorem State.writeBytes_posY (s : State) (ws : List ByteWrite) : (s.writeBytes ws).posY = s.posY := by
  induction ws generalizing s with
  | nil => rfl
  | cons w ws ih => simp [ih]
@[simp] theorem State.writeBytes_color (s : State) (ws : List ByteWrite) : (s.writeBytes ws).color = s.color := by
  induction ws generalizing s with
  | nil => rfl
  | cons w ws ih => simp [ih]
@[simp] theorem State.writeBytes_offset (s : State) (ws : List ByteWrite) : (s.writeBytes ws).offset = s.offset := by
  induction ws generalizing s with
  | nil => rfl
  | cons w ws ih => simp [ih]
@[simp] theorem State.writeBytes_fbdraw0 (s : State) (ws : List ByteWrite) : (s.writeBytes ws).fbdraw0 = s.fbdraw0 := by
  induction ws generalizing s with
  | nil => rfl
  | cons w ws ih => simp [ih]
@[simp] theorem State.writeBytes_fbdraw1 (s : State) (ws : List ByteWrite) : (s.writeBytes ws).fbdraw1 = s.fbdraw1 := by
  induction ws generalizing s with
  | nil => rfl
  | cons w ws ih => simp [ih]
@[simp] theorem State.writeBytes_rate (s : State) (ws : List ByteWrite) : (s.writeBytes ws).rate = s.rate := by
  induction ws generalizing s with
  | nil => rfl
  | cons w ws ih => simp [ih]
@[simp] theorem State.writeBytes_delay (s : State) (ws : List ByteWrite) : (s.writeBytes ws).delay = s.delay := by
  induction ws generalizing s with
  | nil => rfl
  | cons w ws ih => simp [ih]
@[simp] theorem State.writeBytes_tick (s : State) (ws : List ByteWrite) : (s.writeBytes ws).tick = s.tick := by
  induction ws generalizing s with
  | nil => rfl
  | cons w ws ih => simp [ih]
@[simp] theorem State.writeBytes_run (s : State) (ws : List ByteWrite) : (s.writeBytes ws).run = s.run := by
  induction ws generalizing s with
  | nil => rfl
  | cons w ws ih => simp [ih]
@[simp] theorem State.writeBytes_swapCnt (s : State) (ws : List ByteWrite) : (s.writeBytes ws).swapCnt = s.swapCnt := by
  induction ws generalizing s with
  | nil => rfl
  | cons w ws ih => simp [ih]
@[simp] theorem State.writeBytes_err (s : State) (ws : List ByteWrite) : (s.writeBytes ws).err = s.err := by
  induction ws generalizing s with
  | nil => rfl
  | cons w ws ih => simp [ih]
@[simp] theorem State.writeBytes_errCode (s : State) (ws : List ByteWrite) : (s.writeBytes ws).errCode = s.errCode := by
  induction ws generalizing s with
  | nil => rfl
  | cons w ws ih => simp [ih]
@[simp] theorem State.writeBytes_errInfo (s : State) (ws : List ByteWrite) : (s.writeBytes ws).errInfo = s.errInfo := by
  induction ws generalizing s with
  | nil => rfl
  | cons w ws ih => simp [ih]
@[simp] theorem State.writeBytes_seq (s : State) (ws : List ByteWrite) : (s.writeBytes ws).seq = s.seq := by
  induction ws generalizing s with
  | nil => rfl
  | cons w ws ih => simp [ih]
@[simp] theorem State.writeBytes_inputs (s : State) (ws : List ByteWrite) : (s.writeBytes ws).inputs = s.inputs := by
  induction ws generalizing s with
  | nil => rfl
  | cons w ws ih => simp [ih]

theorem State.writeBytes_memory (s : State) (ws : List ByteWrite) :
    (s.writeBytes ws).memory = ws.foldl (fun m w => m.store s.cfg w.1 w.2) s.memory := by
  induction ws generalizing s with
  | nil => rfl
  | cons w ws ih => simp [ih]

theorem State.writeBytes_history (s : State) (ws : List ByteWrite) :
    (s.writeBytes ws).history = s.history ++ ws.map (fun w => .memWrite w.1 w.2) := by
  induction ws generalizing s with
  | nil => simp
  | cons w ws ih => simp [ih]

/-! ### drawPixel and drawPixels -/

@[simp] theorem State.drawPixel_cfg (sc : Screen) (s : State) (p : Nat) : (s.drawPixel sc p).cfg = s.cfg := by
  simp [State.drawPixel]
@[simp] theorem State.drawPixel_posX (sc : Screen) (s : State) (p : Nat) : (s.drawPixel sc p).posX = s.posX := by
  simp [State.drawPixel]
@[simp] theorem State.drawPixel_posY (sc : Screen) (s : State) (p : Nat) : (s.drawPixel sc p).posY = s.posY := by
  simp [State.drawPixel]
@[simp] theorem State.drawPixel_color (sc : Screen) (s : State) (p : Nat) : (s.drawPixel sc p).color = s.color := by
  simp [State.drawPixel]
@[simp] theorem State.drawPixel_offset (sc : Screen) (s : State) (p : Nat) : (s.drawPixel sc p).offset = BitVec.ofNat 32 p := by
  simp [State.drawPixel]
@[simp] theorem State.drawPixel_fbdraw0 (sc : Screen) (s : State) (p : Nat) : (s.drawPixel sc p).fbdraw0 = s.fbdraw0 := by
  simp [State.drawPixel]
@[simp] theorem State.drawPixel_fbdraw1 (sc : Screen) (s : State) (p : Nat) : (s.drawPixel sc p).fbdraw1 = s.fbdraw1 := by
  simp [State.drawPixel]
@[simp] theorem State.drawPixel_rate (sc : Screen) (s : State) (p : Nat) : (s.drawPixel sc p).rate = s.rate := by
  simp [State.drawPixel]
@[simp] theorem State.drawPixel_delay (sc : Screen) (s : State) (p : Nat) : (s.drawPixel sc p).delay = s.delay := by
  simp [State.drawPixel]
@[simp] theorem State.drawPixel_tick (sc : Screen) (s : State) (p : Nat) : (s.drawPixel sc p).tick = s.tick := by
  simp [State.drawPixel]
@[simp] theorem State.drawPixel_run (sc : Screen) (s : State) (p : Nat) : (s.drawPixel sc p).run = s.run := by
  simp [State.drawPixel]
@[simp] theorem State.drawPixel_swapCnt (sc : Screen) (s : State) (p : Nat) : (s.drawPixel sc p).swapCnt = s.swapCnt := by
  simp [State.drawPixel]
@[simp] theorem State.drawPixel_err (sc : Screen) (s : State) (p : Nat) : (s.drawPixel sc p).err = s.err := by
  simp [State.drawPixel]
@[simp] theorem State.drawPixel_errCode (sc : Screen) (s : State) (p : Nat) : (s.drawPixel sc p).errCode = s.errCode := by
  simp [State.drawPixel]
@[simp] theorem State.drawPixel_errInfo (sc : Screen) (s : State) (p : Nat) : (s.drawPixel sc p).errInfo = s.errInfo := by
  simp [State.drawPixel]
@[simp] theorem State.drawPixel_seq (sc : Screen) (s : State) (p : Nat) : (s.drawPixel sc p).seq = s.seq := by
  simp [State.drawPixel]
@[simp] theorem State.drawPixel_inputs (sc : Screen) (s : State) (p : Nat) : (s.drawPixel sc p).inputs = s.inputs := by
  simp [State.drawPixel]

@[simp] theorem State.drawPixels_nil (sc : Screen) (s : State) : s.drawPixels sc [] = s := rfl

@[simp] theorem State.drawPixels_cons (sc : Screen) (s : State) (p : Nat) (ps : List Nat) :
    s.drawPixels sc (p :: ps) = (s.drawPixel sc p).drawPixels sc ps := rfl

theorem State.drawPixels_append (sc : Screen) (s : State) (ps qs : List Nat) :
    s.drawPixels sc (ps ++ qs) = (s.drawPixels sc ps).drawPixels sc qs := by
  simp [State.drawPixels, List.foldl_append]

@[simp] theorem State.drawPixels_cfg (sc : Screen) (s : State) (ps : List Nat) : (s.drawPixels sc ps).cfg = s.cfg := by
  induction ps generalizing s with
  | nil => rfl
  | cons p ps ih => simp [ih]
@[simp] theorem State.drawPixels_posX (sc : Screen) (s : State) (ps : List Nat) : (s.drawPixels sc ps).posX = s.posX := by
  induction ps generalizing s with
  | nil => rfl
  | cons p ps ih => simp [ih]
@[simp] theorem State.drawPixels_posY (sc : Screen) (s : State) (ps : List Nat) : (s.drawPixels sc ps).posY = s.posY := by
  induction ps generalizing s with
  | nil => rfl
  | cons p ps ih => simp [ih]
@[simp] theorem State.drawPixels_color (sc : Screen) (s : State) (ps : List Nat) : (s.drawPixels sc ps).color = s.color := by
  induction ps generalizing s with
  | nil => rfl
  | cons p ps ih => simp [ih]
@[simp] theorem State.drawPixels_fbdraw0 (sc : Screen) (s : State) (ps : List Nat) : (s.drawPixels sc ps).fbdraw0 = s.fbdraw0 := by
  induction ps generalizing s with
  | nil => rfl
  | cons p ps ih => simp [ih]
@[simp] theorem State.drawPixels_fbdraw1 (sc : Screen) (s : State) (ps : List Nat) : (s.drawPixels sc ps).fbdraw1 = s.fbdraw1 := by
  induction ps generalizing s with
  | nil => rfl
  | cons p ps ih => simp [ih]
@[simp] theorem State.drawPixels_rate (sc : Screen) (s : State) (ps : List Nat) : (s.drawPixels sc ps).rate = s.rate := by
  induction ps generalizing s with
  | nil => rfl
  | cons p ps ih => simp [ih]
@[simp] theorem State.drawPixels_delay (sc : Screen) (s : State) (ps : List Nat) : (s.drawPixels sc ps).delay = s.delay := by
  induction ps generalizing s with
  | nil => rfl
  | cons p ps ih => simp [ih]
@[simp] theorem State.drawPixels_tick (sc : Screen) (s : State) (ps : List Nat) : (s.drawPixels sc ps).tick = s.tick := by
  induction ps generalizing s with
  | nil => rfl
  | cons p ps ih => simp [ih]
@[simp] theorem State.drawPixels_run (sc : Screen) (s : State) (ps : List Nat) : (s.drawPixels sc ps).run = s.run := by
  induction ps generalizing s with
  | nil => rfl
  | cons p ps ih => simp [ih]
@[simp] theorem State.drawPixels_swapCnt (sc : Screen) (s : State) (ps : List Nat) : (s.drawPixels sc ps).swapCnt = s.swapCnt := by
  induction ps generalizing s with
  | nil => rfl
  | cons p ps ih => simp [ih]
@[simp] theorem State.drawPixels_err (sc : Screen) (s : State) (ps : List Nat) : (s.drawPixels sc ps).err = s.err := by
  induction ps generalizing s with
  | nil => rfl
  | cons p ps ih => simp [ih]
@[simp] theorem State.drawPixels_errCode (sc : Screen) (s : State) (ps : List Nat) : (s.drawPixels sc ps).errCode = s.errCode := by
  induction ps generalizing s with
  | nil => rfl
  | cons p ps ih => simp [ih]
@[simp] theorem State.drawPixels_errInfo (sc : Screen) (s : State) (ps : List Nat) : (s.drawPixels sc ps).errInfo = s.errInfo := by
  induction ps generalizing s with
  | nil => rfl
  | cons p ps ih => simp [ih]
@[simp] theorem State.drawPixels_seq (sc : Screen) (s : State) (ps : List Nat) : (s.drawPixels sc ps).seq = s.seq := by
  induction ps generalizing s with
  | nil => rfl
  | cons p ps ih => simp [ih]
@[simp] theorem State.drawPixels_inputs (sc : Screen) (s : State) (ps : List Nat) : (s.drawPixels sc ps).inputs = s.inputs := by
  induction ps generalizing s with
  | nil => rfl
  | cons p ps ih => simp [ih]

end Sys2Proof.Machine
end

