-- ==== Sys2Proof/Laws/Memory.lean ====
section
/-! SUPPORT. Bus memory: a read after a write, the canonical form, and that two memories in canonical form that read alike are
equal. -/

namespace Sys2Proof.Machine

theorem Memory.read_write_same (m : Memory) (a : Nat) (b : Byte) : (m.write a b).read a = some b := by
  induction m with
  | nil => simp [Memory.write, Memory.read]
  | cons x m ih =>
    obtain ⟨k, c⟩ := x
    simp only [Memory.write]
    split
    · simp [Memory.read]
    · split
      · simp [Memory.read]
      · simp_all [Memory.read]

theorem Memory.read_write_ne (m : Memory) (a a' : Nat) (b : Byte) (h : a' ≠ a) :
    (m.write a b).read a' = m.read a' := by
  induction m with
  | nil => simp [Memory.write, Memory.read, h]
  | cons x m ih =>
    obtain ⟨k, c⟩ := x
    simp only [Memory.write]
    split
    · simp [Memory.read, h]
    · split
      · simp_all [Memory.read]
      · simp only [Memory.read, ih]

/-- A read after a write, both cases at once. -/
theorem Memory.read_write (m : Memory) (a a' : Nat) (b : Byte) :
    (m.write a b).read a' = if a' = a then some b else m.read a' := by
  split
  · next h => rw [h, Memory.read_write_same]
  · next h => exact Memory.read_write_ne m a a' b h

theorem Memory.mem_write {m : Memory} {a : Nat} {b : Byte} {x : Host.Cell} (h : x ∈ m.write a b) :
    x = (a, b) ∨ x ∈ m := by
  induction m with
  | nil => simpa [Memory.write] using h
  | cons y m ih =>
    obtain ⟨k, c⟩ := y
    simp only [Memory.write] at h
    split at h
    · simpa using h
    · split at h
      · rcases List.mem_cons.1 h with h | h
        · exact .inl h
        · exact .inr (List.mem_cons_of_mem _ h)
      · rcases List.mem_cons.1 h with h | h
        · exact .inr (h ▸ List.mem_cons_self)
        · rcases ih h with h | h
          · exact .inl h
          · exact .inr (List.mem_cons_of_mem _ h)

/-- A write inside the bus space keeps the canonical form. -/
theorem Memory.write_wf {m : Memory} (hm : m.wf) {a : Nat} (ha : a < 2 ^ 32) (b : Byte) : (m.write a b).wf := by
  refine ⟨?_, fun x hx => ?_⟩
  · obtain ⟨hs, -⟩ := hm
    induction m with
    | nil => simp [Memory.write]
    | cons y m ih =>
      obtain ⟨k, c⟩ := y
      rw [List.pairwise_cons] at hs
      simp only [Memory.write]
      split
      · next hlt =>
        refine List.pairwise_cons.2 ⟨fun x hx => ?_, List.pairwise_cons.2 hs⟩
        rcases List.mem_cons.1 hx with rfl | hx
        · exact hlt
        · exact Nat.lt_trans hlt (hs.1 x hx)
      · split
        · next heq => exact List.pairwise_cons.2 ⟨fun x hx => heq ▸ hs.1 x hx, hs.2⟩
        · next h1 h2 =>
          refine List.pairwise_cons.2 ⟨fun x hx => ?_, ih hs.2⟩
          rcases Memory.mem_write hx with rfl | hx
          · show k < a
            omega
          · exact hs.1 x hx
  · rcases Memory.mem_write hx with rfl | hx
    · exact ha
    · exact hm.2 x hx

theorem Memory.read_eq_none_of_lt {m : Memory} {a : Nat} (h : ∀ x ∈ m, a < x.1) : m.read a = none := by
  induction m with
  | nil => rfl
  | cons y m ih =>
    obtain ⟨k, c⟩ := y
    have hk : a < k := h (k, c) List.mem_cons_self
    have : a ≠ k := by omega
    simp only [Memory.read, if_neg this]
    exact ih fun x hx => h x (List.mem_cons_of_mem _ hx)

theorem Memory.mem_of_read {m : Memory} {a : Nat} {b : Byte} (h : m.read a = some b) : (a, b) ∈ m := by
  induction m with
  | nil => simp [Memory.read] at h
  | cons y m ih =>
    obtain ⟨k, c⟩ := y
    simp only [Memory.read] at h
    split at h
    · next hk => simp_all
    · exact List.mem_cons_of_mem _ (ih h)

/-- Two memories with rising addresses that read alike everywhere are the same list. -/
theorem Memory.ext_of_read {m n : Memory} (hm : m.Pairwise fun x y => x.1 < y.1)
    (hn : n.Pairwise fun x y => x.1 < y.1) (h : ∀ a, m.read a = n.read a) : m = n := by
  induction m generalizing n with
  | nil =>
    cases n with
    | nil => rfl
    | cons y n =>
      have := h y.1
      simp [Memory.read] at this
  | cons x m ih =>
    cases n with
    | nil =>
      have := h x.1
      simp [Memory.read] at this
    | cons y n =>
      obtain ⟨k, c⟩ := x
      obtain ⟨l, d⟩ := y
      rw [List.pairwise_cons] at hm hn
      have hkl : k = l := by
        rcases Nat.lt_trichotomy k l with hlt | heq | hgt
        · have h1 := h k
          have h2 : Memory.read ((l, d) :: n) k = none := Memory.read_eq_none_of_lt fun z hz => by
            rcases List.mem_cons.1 hz with rfl | hz
            · exact hlt
            · exact Nat.lt_trans hlt (hn.1 z hz)
          rw [h2] at h1
          simp [Memory.read] at h1
        · exact heq
        · have h1 := h l
          have h2 : Memory.read ((k, c) :: m) l = none := Memory.read_eq_none_of_lt fun z hz => by
            rcases List.mem_cons.1 hz with rfl | hz
            · exact hgt
            · exact Nat.lt_trans hgt (hm.1 z hz)
          rw [h2] at h1
          simp [Memory.read] at h1
      subst hkl
      have hcd : c = d := by
        have := h k
        simpa [Memory.read] using this
      subst hcd
      congr 1
      refine ih hm.2 hn.2 fun a => ?_
      by_cases ha : a = k
      · subst ha
        rw [Memory.read_eq_none_of_lt hm.1, Memory.read_eq_none_of_lt hn.1]
      · have := h a
        simpa [Memory.read, ha] using this

/-! ### A byte on the bus: kept where there is memory, lost elsewhere -/

theorem Memory.store_of_memory {c : Config} {a : Word} (h : c.hasMemory a.toNat = true) (m : Memory) (b : Byte) :
    m.store c a b = m.write a.toNat b := by
  simp [Memory.store, h]

theorem Memory.store_of_no_memory {c : Config} {a : Word} (h : c.hasMemory a.toNat = false) (m : Memory) (b : Byte) :
    m.store c a b = m := by
  simp [Memory.store, h]

/-- A read after a byte went out on the bus, every case. -/
theorem Memory.read_store (c : Config) (m : Memory) (a a' : Word) (b : Byte) :
    (m.store c a b).read a'.toNat = if a' = a ∧ c.hasMemory a.toNat = true then some b else m.read a'.toNat := by
  cases h : c.hasMemory a.toNat
  · simp [Memory.store_of_no_memory h]
  · simp [Memory.store_of_memory h, Memory.read_write, BitVec.toNat_inj]

/-- A byte on the bus keeps the canonical form. -/
theorem Memory.store_wf {m : Memory} (hm : m.wf) (c : Config) (a : Word) (b : Byte) : (m.store c a b).wf := by
  unfold Memory.store
  split
  · exact Memory.write_wf hm a.isLt b
  · exact hm

theorem Memory.mem_store {c : Config} {m : Memory} {a : Word} {b : Byte} {x : Host.Cell} (h : x ∈ m.store c a b) :
    (x = (a.toNat, b) ∧ c.hasMemory x.1 = true) ∨ x ∈ m := by
  unfold Memory.store at h
  split at h
  · next hc =>
    rcases Memory.mem_write h with rfl | h
    · exact .inl ⟨rfl, hc⟩
    · exact .inr h
  · exact .inr h

end Sys2Proof.Machine
end

