-- ==== Sys2Proof/Laws/Ops.lean ====
section
/-! SUPPORT. For each shared operation what it can do, once: the byte writes of the block, pixels drawn, command acceptance,
host accesses, and one step by the sequencer's condition. -/

namespace Sys2Proof.Machine

/-! ### Reading one byte -/

theorem State.readByte_writeByte (s : State) (w : ByteWrite) (a : Word) :
    (s.writeByte w).readByte a =
      if a = w.1 ∧ s.cfg.hasMemory w.1.toNat = true then some w.2 else s.readByte a := by
  simp only [State.readByte, State.writeByte_memory, Memory.read_store]

theorem State.readByte_congr {s t : State} (h : s.memory = t.memory) (a : Word) : s.readByte a = t.readByte a := by
  simp [State.readByte, h]

@[simp] theorem State.readByte_latchOffset (s : State) (p : Nat) (a : Word) :
    (s.latchOffset p).readByte a = s.readByte a := rfl

/-- Byte writes leave every other byte alone, and every address without memory. -/
theorem State.readByte_writeBytes_of_not_mem (s : State) (ws : List ByteWrite) (a : Word)
    (h : (∀ w ∈ ws, a ≠ w.1) ∨ s.cfg.hasMemory a.toNat = false) : (s.writeBytes ws).readByte a = s.readByte a := by
  induction ws generalizing s with
  | nil => rfl
  | cons w ws ih =>
    have hw : ¬ (a = w.1 ∧ s.cfg.hasMemory w.1.toNat = true) := by
      rintro ⟨rfl, hm⟩
      rcases h with h | h
      · exact h w List.mem_cons_self rfl
      · simp [h] at hm
    rw [State.writeBytes_cons, ih _ (h.imp (fun h v hv => h v (List.mem_cons_of_mem _ hv)) (by simp)),
      State.readByte_writeByte, if_neg hw]

/-- Where byte writes go to distinct addresses, each byte written where there is memory reads back. -/
theorem State.readByte_writeBytes_of_mem (s : State) (ws : List ByteWrite) (w : ByteWrite) (hw : w ∈ ws)
    (hm : s.cfg.hasMemory w.1.toNat = true) (hd : ws.Pairwise fun v u => v.1 ≠ u.1) :
    (s.writeBytes ws).readByte w.1 = some w.2 := by
  induction ws generalizing s with
  | nil => simp at hw
  | cons v ws ih =>
    rw [List.pairwise_cons] at hd
    rw [State.writeBytes_cons]
    rcases List.mem_cons.1 hw with rfl | hw
    · rw [State.readByte_writeBytes_of_not_mem _ _ _ (.inl hd.1), State.readByte_writeByte, if_pos ⟨rfl, hm⟩]
    · exact ih _ hw (by simpa using hm) hd.2

/-- Every memory operation of the block keeps the canonical form. -/
theorem State.writeBytes_wf {s : State} (h : s.memory.wf) (ws : List ByteWrite) : (s.writeBytes ws).memory.wf := by
  induction ws generalizing s with
  | nil => exact h
  | cons w ws ih => exact ih (Memory.store_wf h s.cfg w.1 w.2)

/-- Every known byte after byte writes was known before or is at an address written that has memory. -/
theorem State.mem_writeBytes {s : State} {ws : List ByteWrite} {x : Host.Cell} (h : x ∈ (s.writeBytes ws).memory) :
    x ∈ s.memory ∨ ∃ w ∈ ws, x.1 = w.1.toNat ∧ s.cfg.hasMemory x.1 = true := by
  induction ws generalizing s with
  | nil => exact .inl h
  | cons w ws ih =>
    rcases ih (s := s.writeByte w) h with h | ⟨v, hv, hx⟩
    · rcases Memory.mem_store h with ⟨rfl, hm⟩ | h
      · exact .inr ⟨w, List.mem_cons_self, rfl, hm⟩
      · exact .inl h
    · exact .inr ⟨v, List.mem_cons_of_mem _ hv, hx⟩

/-! ### Pixels -/

@[simp] theorem State.fbdraw_latchOffset (s : State) (p : Nat) (sc : Screen) :
    (s.latchOffset p).fbdraw sc = s.fbdraw sc := by cases sc <;> rfl

/-- What a pixel's byte writes depend on. -/
theorem pixelWrites_congr {s t : State} (h0 : s.fbdraw0 = t.fbdraw0) (h1 : s.fbdraw1 = t.fbdraw1)
    (hc : s.color = t.color) (sc : Screen) (p : Nat) : pixelWrites s sc p = pixelWrites t sc p := by
  cases sc <;> simp [pixelWrites, State.fbdraw, h0, h1, hc]

/-- What the offset of a scan position depends on. -/
theorem scanOffset_congr {s t : State} (hc : s.cfg = t.cfg) (hx : s.posX = t.posX) (hy : s.posY = t.posY)
    (sc : Screen) (p : Scan) : scanOffset s sc p = scanOffset t sc p := by
  simp [scanOffset, cellOffset, hc, hx, hy]

theorem drawPixel_memory (sc : Screen) (s : State) (p : Nat) :
    (s.drawPixel sc p).memory = (s.writeBytes (pixelWrites s sc p)).memory := by
  simp [State.drawPixel, State.writeBytes_memory]

theorem drawPixel_history (sc : Screen) (s : State) (p : Nat) :
    (s.drawPixel sc p).history = s.history ++ (pixelWrites s sc p).map fun w => .memWrite w.1 w.2 := by
  simp [State.drawPixel, State.writeBytes_history]

/-- Pixels drawn are their byte writes in order, with OFFSET the last pixel's: the whole of what drawing can do. -/
theorem drawPixels_eq (sc : Screen) (s : State) (ps : List Nat) :
    s.drawPixels sc ps =
      { s.writeBytes (ps.flatMap (pixelWrites s sc)) with
        offset := (ps.getLast?.map (BitVec.ofNat 32)).getD s.offset } := by
  induction ps generalizing s with
  | nil => simp
  | cons p ps ih =>
    have hp : ∀ q, pixelWrites (s.drawPixel sc p) sc q = pixelWrites s sc q := fun q =>
      pixelWrites_congr (by simp) (by simp) (by simp) sc q
    rw [State.drawPixels_cons, ih, List.flatMap_cons, State.writeBytes_append]
    have hf : (fun q => pixelWrites (s.drawPixel sc p) sc q) = pixelWrites s sc := funext hp
    have hf' : ps.flatMap (pixelWrites (s.drawPixel sc p) sc) = ps.flatMap (pixelWrites s sc) := by
      rw [show pixelWrites (s.drawPixel sc p) sc = pixelWrites s sc from hf]
    rw [hf']
    have hm : ((s.drawPixel sc p).writeBytes (ps.flatMap (pixelWrites s sc))).memory =
        ((s.writeBytes (pixelWrites s sc p)).writeBytes (ps.flatMap (pixelWrites s sc))).memory := by
      rw [State.writeBytes_memory, State.writeBytes_memory _ (ps.flatMap _), drawPixel_memory, State.drawPixel_cfg,
        State.writeBytes_cfg]
    have hh : ((s.drawPixel sc p).writeBytes (ps.flatMap (pixelWrites s sc))).history =
        ((s.writeBytes (pixelWrites s sc p)).writeBytes (ps.flatMap (pixelWrites s sc))).history := by
      rw [State.writeBytes_history, State.writeBytes_history _ (ps.flatMap _), drawPixel_history,
        State.writeBytes_history]
    cases ps with
    | nil => simp_all
    | cons q qs => simp_all [List.getLast?_cons]

/-! ### Commands -/

/-- Acceptance of a word written to CMD, every case (spec/10_state.md R37). -/
theorem acceptCommand_cases {g : Grain} {w : Word} {s t : State} (h : acceptCommand g w s = .next t) :
    (s.err = true ∧ t = s) ∨
    (s.err = false ∧ ∃ i, decode w = .command i ∧ runCommand g i (s.record (.cmd w)) = .next t) ∨
    (s.err = false ∧ ∃ why, decode w = .illegal why ∧ t = (s.record (.cmd w)).raise .illegalCommand w) := by
  unfold acceptCommand at h
  cases he : s.err <;> simp only [he, Bool.false_eq_true, if_true, if_false] at h
  · refine .inr ?_
    cases hd : decode w with
    | command i => rw [hd] at h; exact .inl ⟨rfl, i, rfl, h⟩
    | illegal why =>
      rw [hd] at h
      injection h with h
      exact .inr ⟨rfl, why, rfl, h.symm⟩
  · injection h with h
    exact .inl ⟨rfl, h.symm⟩

theorem acceptCommand_of_err {g : Grain} {w : Word} {s : State} (h : s.err = true) :
    acceptCommand g w s = .next s := by
  simp [acceptCommand, h]

theorem acceptCommand_of_command {g : Grain} {w : Word} {s : State} {i : Instr} (h : s.err = false)
    (hd : decode w = .command i) : acceptCommand g w s = runCommand g i (s.record (.cmd w)) := by
  simp [acceptCommand, h, hd]

theorem acceptCommand_of_illegal {g : Grain} {w : Word} {s : State} {why : Illegal} (h : s.err = false)
    (hd : decode w = .illegal why) :
    acceptCommand g w s = .next ((s.record (.cmd w)).raise .illegalCommand w) := by
  simp [acceptCommand, h, hd]

/-! ### Host accesses -/

theorem regAt_regOffset (r : Reg) : regAt (regOffset r) = some r := by cases r <;> rfl

theorem regOffset_lt (r : Reg) : regOffset r < 0x34 := by cases r <;> decide

theorem accessRefusal_of_wf {c : Config} {a : Access} (h : a.Wf c) : accessRefusal c a = none := by
  obtain ⟨h1, h2, h3, h4⟩ := h
  unfold accessRefusal
  rw [if_neg (not_not.2 h1), if_neg (not_not.2 h2), if_neg (not_not.2 h3), if_neg (not_not.2 h4)]

theorem accessRefusal_none {c : Config} {a : Access} (h : accessRefusal c a = none) : a.Wf c := by
  unfold accessRefusal at h
  by_cases h1 : a.ToWindow c
  · by_cases h2 : a.WordWide
    · by_cases h3 : a.Aligned
      · by_cases h4 : a.NotReserved c
        · exact ⟨h1, h2, h3, h4⟩
        · simp_all
      · simp_all
    · simp_all
  · simp_all

theorem regAddr_toNat {c : Config} (hc : c.BaseFits) (r : Reg) : (regAddr c r).toNat = c.base + regOffset r := by
  have := regOffset_lt r
  simp only [regAddr, BitVec.toNat_ofNat]
  exact Nat.mod_eq_of_lt (by omega)

/-- The word-wide access to a register's own address is one the window supports. -/
theorem regAddr_read_wf {c : Config} (ha : c.BaseAligned) (hf : c.BaseFits) (r : Reg) :
    (Access.read (regAddr c r) 4).Wf c := by
  have h := regAddr_toNat hf r
  have hl := regOffset_lt r
  have h4 : regOffset r % 4 = 0 := by cases r <;> rfl
  have hb : c.base % 64 = 0 := ha
  refine ⟨⟨?_, ?_⟩, rfl, ?_, ?_⟩
  · show c.base ≤ (regAddr c r).toNat
    omega
  · show (regAddr c r).toNat < c.base + 64
    omega
  · show (regAddr c r).toNat % 4 = 0
    omega
  · show (regAddr c r).toNat - c.base < 0x34
    omega

theorem regAddr_write_wf {c : Config} (ha : c.BaseAligned) (hf : c.BaseFits) (r : Reg) (v : Word) :
    (Access.write (regAddr c r) 4 v).Wf c := regAddr_read_wf ha hf r

/-- A word-wide access to a register's own address reaches that register. -/
theorem hostAccess_regAddr {s : State} (ha : s.cfg.BaseAligned) (hf : s.cfg.BaseFits) (g : Grain) (r : Reg)
    (a : Access) (hr : a = .read (regAddr s.cfg r) 4 ∨ ∃ v, a = .write (regAddr s.cfg r) 4 v) :
    hostAccess g a s = regAccess g r a s := by
  have hw : a.Wf s.cfg := by
    rcases hr with rfl | ⟨v, rfl⟩
    · exact regAddr_read_wf ha hf r
    · exact regAddr_write_wf ha hf r v
  have haddr : a.addr.toNat - s.cfg.base = regOffset r := by
    have : a.addr = regAddr s.cfg r := by rcases hr with rfl | ⟨v, rfl⟩ <;> rfl
    rw [this, regAddr_toNat hf, Nat.add_sub_cancel_left]
  unfold hostAccess
  rw [accessRefusal_of_wf hw, haddr, regAt_regOffset]

/-- A host access that does not stop the model is a read record, a write to CMD, or a store to another register. -/
theorem hostAccess_cases {g : Grain} {a : Access} {s t : State} (h : hostAccess g a s = .next t) :
    ∃ r, regAt (a.addr.toNat - s.cfg.base) = some r ∧ a.Wf s.cfg ∧
      ((∃ p n, a = .read p n ∧ t = s.record (.regRead (regOffset r) (s.readReg r))) ∨
       (∃ p n v, a = .write p n v ∧ r = .cmd ∧ acceptCommand g v (s.record (.regWrite (regOffset .cmd) v)) = .next t) ∨
       (∃ p n v, a = .write p n v ∧ r ≠ .cmd ∧ t = (s.writeReg r v).record (.regWrite (regOffset r) v))) := by
  unfold hostAccess at h
  cases hr : accessRefusal s.cfg a with
  | some why => rw [hr] at h; cases h
  | none =>
    rw [hr] at h
    simp only at h
    cases hq : regAt (a.addr.toNat - s.cfg.base) with
    | none => rw [hq] at h; cases h
    | some r =>
      rw [hq] at h
      simp only at h
      refine ⟨r, rfl, accessRefusal_none hr, ?_⟩
      cases a with
      | read p n =>
        injection h with h
        exact .inl ⟨p, n, rfl, h.symm⟩
      | write p n v =>
        by_cases hc : r = .cmd
        · subst hc
          exact .inr (.inl ⟨p, n, v, rfl, rfl, h⟩)
        · refine .inr (.inr ⟨p, n, v, rfl, hc, ?_⟩)
          cases r <;> first | exact absurd rfl hc | (injection h with h; exact h.symm)

/-- A host store that does not stop the model puts one byte on the bus. -/
theorem hostStore_cases {a : Word} {b : Byte} {s t : State} (h : hostStore a b s = .next t) :
    ¬ InWindow s.cfg a ∧ t = { s with memory := s.memory.store s.cfg a b } := by
  unfold hostStore at h
  split at h
  · cases h
  · next hw =>
    injection h with h
    exact ⟨hw, h.symm⟩

/-! ### Steps -/

theorem step_of_idle {s : State} (h : s.seq = .idle) : step s = idleStep s := by
  simp [step, agentStep, h]

theorem step_of_waiting {s : State} (h : s.seq = .waiting) : step s = waitingStep s := by
  simp [step, agentStep, h]

theorem step_of_drawing {s : State} {sc : Screen} {q : Option (Byte × Scan)} {ws : List ByteWrite}
    (h : s.seq = .drawing sc q ws) : step s = drawingStep s := by
  simp [step, agentStep, h]

/-- A held FPWAIT's step, every case. -/
theorem waitingStep_cases {s t : State} (h : waitingStep s = .next t) :
    (Reached s ∧ t = s.completeWait) ∨
    (¬ Reached s ∧ ((∃ rest, s.inputs = .reset :: rest ∧ t = ({ s with inputs := rest } : State).resetBlock) ∨
      (∃ rest, s.inputs = .tick :: rest ∧ t = ({ s with inputs := rest } : State).ticked) ∨
      (∃ rest, s.inputs = .sequencer :: rest ∧ t = { s with inputs := rest }) ∨
      (agentNext s.inputs = false ∧ s.run = true ∧ t = s.ticked))) := by
  have held : heldStep s = .next t → s.run = true ∧ t = s.ticked := by
    intro h
    unfold heldStep at h
    split at h
    · next hr => injection h with h; exact ⟨hr, h.symm⟩
    · cases h
  unfold waitingStep at h
  split at h
  · next hr => injection h with h; exact .inl ⟨hr, h.symm⟩
  · next hr =>
    refine .inr ⟨hr, ?_⟩
    split at h
    · next hi => exact .inr (.inr (.inr ⟨by simp [hi, agentNext], held h⟩))
    · next rest hi => injection h with h; exact .inr (.inl ⟨rest, hi, h.symm⟩)
    · next rest hi => injection h with h; exact .inl ⟨rest, hi, h.symm⟩
    · next rest hi => injection h with h; exact .inr (.inr (.inl ⟨rest, hi, h.symm⟩))
    · next hi => exact .inr (.inr (.inr ⟨by simp [hi, agentNext], held h⟩))
    · next hi => exact .inr (.inr (.inr ⟨by simp [hi, agentNext], held h⟩))

/-- A drawing command's step, every case. -/
theorem drawingStep_cases {s t : State} (h : drawingStep s = .next t) :
    (∃ rest, s.inputs = .reset :: rest ∧ t = ({ s with inputs := rest } : State).resetBlock) ∨
    (∃ rest, s.inputs = .tick :: rest ∧ t = ({ s with inputs := rest } : State).ticked) ∨
    (∃ rest, s.inputs = .sequencer :: rest ∧ t = ({ s with inputs := rest } : State).drawStep) ∨
    (agentNext s.inputs = false ∧ t = s.drawStep) := by
  unfold drawingStep at h
  split at h <;> injection h with h
  · next hi => exact .inr (.inr (.inr ⟨by simp [hi, agentNext], h.symm⟩))
  · next rest hi => exact .inr (.inl ⟨rest, hi, h.symm⟩)
  · next rest hi => exact .inl ⟨rest, hi, h.symm⟩
  · next rest hi => exact .inr (.inr (.inl ⟨rest, hi, h.symm⟩))
  · next hi => exact .inr (.inr (.inr ⟨by simp [hi, agentNext], h.symm⟩))
  · next hi => exact .inr (.inr (.inr ⟨by simp [hi, agentNext], h.symm⟩))

/-- A drawing command part way moves on, whoever of the host's accesses waits. -/
theorem step_of_drawing_moves {s : State} {sc : Screen} {q : Option (Byte × Scan)} {ws : List ByteWrite}
    (h : s.seq = .drawing sc q ws) (hi : agentNext s.inputs = false) : step s = .next s.drawStep := by
  rw [step_of_drawing h]
  unfold drawingStep
  split <;> first | rfl | simp_all [agentNext]

/-- The sequencer's turn inside a drawing command. -/
theorem step_of_drawing_turn {s : State} {sc : Screen} {q : Option (Byte × Scan)} {ws : List ByteWrite} {rest : List Input}
    (h : s.seq = .drawing sc q ws) (hi : s.inputs = .sequencer :: rest) :
    step s = .next ({ s with inputs := rest } : State).drawStep := by
  rw [step_of_drawing h, drawingStep, hi]

/-- An idle block's step, every case. -/
theorem idleStep_cases {s t : State} (h : idleStep s = .next t) :
    (s.inputs = [] ∧ t = s.ticked) ∨
    (∃ rest, s.inputs = .tick :: rest ∧ t = ({ s with inputs := rest } : State).ticked) ∨
    (∃ rest, s.inputs = .reset :: rest ∧ t = ({ s with inputs := rest } : State).resetBlock) ∨
    (∃ rest, s.inputs = .sequencer :: rest ∧ t = { s with inputs := rest }) ∨
    (∃ g a rest, s.inputs = .access g a :: rest ∧ hostAccess g a { s with inputs := rest } = .next t) ∨
    (∃ a b rest, s.inputs = .store a b :: rest ∧ hostStore a b { s with inputs := rest } = .next t) := by
  unfold idleStep at h
  split at h
  · next hi => injection h with h; exact .inl ⟨hi, h.symm⟩
  · next rest hi => injection h with h; exact .inr (.inl ⟨rest, hi, h.symm⟩)
  · next rest hi => injection h with h; exact .inr (.inr (.inl ⟨rest, hi, h.symm⟩))
  · next rest hi => injection h with h; exact .inr (.inr (.inr (.inl ⟨rest, hi, h.symm⟩)))
  · next g a rest hi => exact .inr (.inr (.inr (.inr (.inl ⟨g, a, rest, hi, h⟩))))
  · next a b rest hi => exact .inr (.inr (.inr (.inr (.inr ⟨a, b, rest, hi, h⟩))))

/-- One step inside a drawing command, every case. -/
theorem drawStep_cases {s : State} {sc : Screen} {q : Option (Byte × Scan)} {ws : List ByteWrite}
    (h : s.seq = .drawing sc q ws) :
    (∃ w v, ws = w :: v ∧ s.drawStep = { s.writeByte w with seq := .drawing sc q v }) ∨
    (ws = [] ∧ q = none ∧ s.drawStep = { s with seq := .idle }) ∨
    (∃ char p, ws = [] ∧ q = some (char, p) ∧ scanBit s.cfg char p = true ∧
      s.drawStep = { s.latchOffset (scanOffset s sc p) with
        seq := .drawing sc (scanRest char p) (pixelWrites s sc (scanOffset s sc p)) }) ∨
    (∃ char p, ws = [] ∧ q = some (char, p) ∧ scanBit s.cfg char p = false ∧
      s.drawStep = { s with seq := .drawing sc (scanRest char p) [] }) := by
  cases ws with
  | cons w v => exact .inl ⟨w, v, rfl, by simp [State.drawStep, h]⟩
  | nil =>
    cases q with
    | none => exact .inr (.inl ⟨rfl, rfl, by simp [State.drawStep, h]⟩)
    | some cp =>
      obtain ⟨char, p⟩ := cp
      cases hb : scanBit s.cfg char p with
      | true => exact .inr (.inr (.inl ⟨char, p, rfl, rfl, hb, by simp [State.drawStep, h, hb]⟩))
      | false => exact .inr (.inr (.inr ⟨char, p, rfl, rfl, hb, by simp [State.drawStep, h, hb]⟩))

end Sys2Proof.Machine
end

