-- ==== Sys2Proof/Laws/PerInstr.lean ====
section
/-! SUPPORT. Facts about every instruction as syntax, one lemma for each constructor: the encoding of a command carries the
match word of its row in the table of spec/30_encoding.md R95. -/

namespace Sys2Proof.Laws

/-- The command's word agrees with its row of the table of R95: `(w & mask) = match`. -/
def RowMatch.Statement (i : Instr) : Prop := encode i &&& rowMask i = rowMatch i

theorem RowMatch.nop : RowMatch.Statement .nop := by unfold RowMatch.Statement; decide

theorem RowMatch.pxaddr (sc : Screen) (row col : BitVec 3) : RowMatch.Statement (.pxaddr sc row col) := by
  unfold RowMatch.Statement
  revert sc row col
  intro sc
  cases sc <;> decide

theorem RowMatch.pxput (sc : Screen) (row col : BitVec 3) : RowMatch.Statement (.pxput sc row col) := by
  unfold RowMatch.Statement
  revert sc row col
  intro sc
  cases sc <;> decide

theorem RowMatch.glyph (sc : Screen) (char : Byte) : RowMatch.Statement (.glyph sc char) := by
  unfold RowMatch.Statement
  revert sc char
  intro sc
  cases sc <;> decide

theorem RowMatch.fprate (rate : Byte) : RowMatch.Statement (.fprate rate) := by
  unfold RowMatch.Statement
  revert rate
  decide

theorem RowMatch.fpstart : RowMatch.Statement .fpstart := by unfold RowMatch.Statement; decide

theorem RowMatch.fpwait : RowMatch.Statement .fpwait := by unfold RowMatch.Statement; decide

theorem RowMatch.fpstop : RowMatch.Statement .fpstop := by unfold RowMatch.Statement; decide

end Sys2Proof.Laws
end

