-- ==== Sys2Proof/Certificates/Slice0/Obligations.lean ====
section
/-! DEFINITION. The statements for the provers. Each docstring names the rule of spec/ that it formalises. All are about every
configuration of the parameters; none rests on State.reset's own instantiation (assumption log 1). -/

open Sys2Proof Sys2Proof.Machine

/-! ### Encoding: spec/30_encoding.md -/

/-- R94, R95: decoding a command's own word gives it back, with every operand at every value the fields admit. -/
def Obligations.DecodeOfEncode : Prop := ∀ i : Instr, decode (encode i) = .command i

/-- R94: a word that spells a command is that command's word: no bit of it is dropped, and no word spells two. -/
def Obligations.EncodeOfDecode : Prop := ∀ (w : Word) (i : Instr), decode w = .command i → encode i = w

/-- R95: a word spells a command of a row exactly when it agrees with the row's match under the row's mask. -/
def Obligations.WordSpellsRowByMatchAndMask : Prop :=
  ∀ w : Word,
    (decode w = .command .nop ↔ w &&& 0xFFFFFFFF = 0x00000000) ∧
    ((∃ sc row col, decode w = .command (.pxaddr sc row col)) ↔ w &&& 0xF7FFFFC0 = 0x10000000) ∧
    ((∃ sc row col, decode w = .command (.pxput sc row col)) ↔ w &&& 0xF7FFFFC0 = 0x20000000) ∧
    ((∃ sc char, decode w = .command (.glyph sc char)) ↔ w &&& 0xF7FFFF00 = 0x30000000) ∧
    ((∃ rate, decode w = .command (.fprate rate)) ↔ w &&& 0xFFFFFF00 = 0x40000000) ∧
    (decode w = .command .fpstart ↔ w &&& 0xFFFFFFFF = 0x50000000) ∧
    (decode w = .command .fpwait ↔ w &&& 0xFFFFFFFF = 0x60000000) ∧
    (decode w = .command .fpstop ↔ w &&& 0xFFFFFFFF = 0x70000000)

/-- R112: the worked encodings and the illegal examples. -/
def Obligations.WorkedEncodingsDecode : Prop :=
  decode 0x00000000 = .command .nop ∧
  decode 0x10000000 = .command (.pxaddr .bottom 0 0) ∧
  decode 0x1800003F = .command (.pxaddr .top 7 7) ∧
  decode 0x2800001D = .command (.pxput .top 3 5) ∧
  decode 0x38000041 = .command (.glyph .top 0x41) ∧
  decode 0x300000FF = .command (.glyph .bottom 0xFF) ∧
  decode 0x4000001E = .command (.fprate 30) ∧
  decode 0x50000000 = .command .fpstart ∧
  decode 0x60000000 = .command .fpwait ∧
  decode 0x70000000 = .command .fpstop ∧
  decode 0x80000000 = .illegal .reservedOpcode ∧
  decode 0x00000001 = .illegal .reservedBits ∧
  decode 0x58000000 = .illegal .reservedBits ∧
  decode 0x20000040 = .illegal .reservedBits ∧
  decode 0x30000100 = .illegal .reservedBits ∧
  decode 0x4800001E = .illegal .reservedBits

/-- R96: a reserved opcode raises IllegalCommand and does nothing else, at its acceptance and at the step that takes the host's
write of it to CMD.
The place of the Cmd record of an illegal word, after RegWrite and before Fault, is the model's (assumption log 4, 11). -/
def Obligations.ReservedOpcodeRaisesIllegalCommand : Prop :=
  ∀ (g : Grain) (w : Word) (s : State), s.err = false → 0x80000000 ≤ w.toNat →
    RaisesIllegal g w s

/-- R97: an opcode 0 to 7 with a 1 in a must-be-zero position raises IllegalCommand and does nothing else, at its acceptance and at
the step that takes the host's write of it to CMD.
The place of the Cmd record of an illegal word, after RegWrite and before Fault, is the model's (assumption log 4, 11). -/
def Obligations.ReservedBitRaisesIllegalCommand : Prop :=
  ∀ (g : Grain) (w : Word) (s : State), s.err = false → w.toNat < 0x80000000 →
    (w.extractLsb' 8 19 ≠ 0 ∨
      ((w.extractLsb' 28 4 = 0 ∨ w.extractLsb' 28 4 = 5 ∨ w.extractLsb' 28 4 = 6 ∨ w.extractLsb' 28 4 = 7) ∧
        (w.extractLsb' 27 1 ≠ 0 ∨ w.extractLsb' 0 8 ≠ 0)) ∨
      ((w.extractLsb' 28 4 = 1 ∨ w.extractLsb' 28 4 = 2) ∧ w.extractLsb' 6 2 ≠ 0) ∨
      (w.extractLsb' 28 4 = 4 ∧ w.extractLsb' 27 1 ≠ 0)) →
    RaisesIllegal g w s

/-! ### The pixel addresser and colour writer: spec/40_pixel_writer.md -/

/-- R125: NOP, the word 0, is done and changes nothing: accepted, only a Cmd is recorded; while ERR = 1 it is dropped; any other
word of opcode 0 raises IllegalCommand.
The place of the Cmd record of an illegal word, after RegWrite and before Fault, is the model's (assumption log 4, 11). -/
def Obligations.NopChangesNothing : Prop :=
  encode .nop = 0x00000000 ∧ ∀ (s : State) (g : Grain), exec .nop s = .next s ∧
    (s.err = false → acceptCommand g 0x00000000 s = .next { s with history := s.history ++ [.cmd 0x00000000] }) ∧
    (s.err = true → acceptCommand g 0x00000000 s = .next s) ∧
    (s.err = false → ∀ w : Word, w.extractLsb' 28 4 = 0 → w ≠ 0x00000000 → RaisesIllegal g w s)

/-- R126, with R123's check and R121's formula: PXADDR writes OFFSET and nothing else, or faults and leaves OFFSET; any other
word of opcode 1 raises IllegalCommand.
The place of the Cmd record of an illegal word, after RegWrite and before Fault, is the model's (assumption log 4, 11). -/
def Obligations.PxaddrComputesOffset : Prop :=
  ∀ (s : State) (sc : Screen) (row col : BitVec 3),
    encode (.pxaddr sc row col) =
      0x10000000 ||| ((match sc with | .top => 1 | .bottom => 0) <<< 27) ||| (row.setWidth 32 <<< 3) |||
        col.setWidth 32 ∧
    (s.posX.toNat ≤ s.cfg.width sc - 1 - col.toNat ∧ s.posY.toNat ≤ s.cfg.height sc - 1 - row.toNat →
      exec (.pxaddr sc row col) s = .next { s with
        offset := BitVec.ofNat 32
          (s.posX.toNat * s.cfg.height sc * 3 + (s.cfg.height sc - row.toNat - s.posY.toNat - 1) * 3 +
            col.toNat * 3 * s.cfg.height sc) }) ∧
    (¬ (s.posX.toNat ≤ s.cfg.width sc - 1 - col.toNat ∧ s.posY.toNat ≤ s.cfg.height sc - 1 - row.toNat) →
      exec (.pxaddr sc row col) s = .next { s with
        err := true, errCode := 2, errInfo := encode (.pxaddr sc row col),
        history := s.history ++ [.fault 2 (encode (.pxaddr sc row col))] }) ∧
    (s.err = false → ∀ (g : Grain) (w : Word), w.extractLsb' 28 4 = 1 →
      (∀ sc' row' col', w ≠ encode (.pxaddr sc' row' col')) → RaisesIllegal g w s)

/-- R127 with R128: an in-bounds PXPUT latches OFFSET, writes the colour's bytes 23:16, 15:8, 7:0 at the three addresses of
spec/20_memory.md R70, in that order, and changes no other byte and no other state; a byte whose address has no memory is lost,
and the command completes all the same (spec/60_exceptions.md R236). The addresses must not lie in the block's own window (R71). -/
def Obligations.PxputWritesOnePixel : Prop :=
  ∀ (s : State) (sc : Screen) (row col : BitVec 3),
    InBoundsPixel s sc row.toNat col.toNat →
    let p := s.posX.toNat * s.cfg.height sc * 3 + (s.cfg.height sc - row.toNat - s.posY.toNat - 1) * 3 +
      col.toNat * 3 * s.cfg.height sc
    let a := fun k : Nat => s.fbdraw sc + BitVec.ofNat 32 (p + k)
    (∀ k, k < 3 → ¬ InWindow s.cfg (a k)) →
    ∃ t, exec (.pxput sc row col) s = .next t ∧
      t = { s with
        offset := BitVec.ofNat 32 p, memory := t.memory,
        history := s.history ++ [.memWrite (a 0) (s.color.extractLsb' 16 8),
          .memWrite (a 1) (s.color.extractLsb' 8 8), .memWrite (a 2) (s.color.extractLsb' 0 8)] } ∧
      (s.cfg.hasMemory (a 0).toNat = true → t.readByte (a 0) = some (s.color.extractLsb' 16 8)) ∧
      (s.cfg.hasMemory (a 1).toNat = true → t.readByte (a 1) = some (s.color.extractLsb' 8 8)) ∧
      (s.cfg.hasMemory (a 2).toNat = true → t.readByte (a 2) = some (s.color.extractLsb' 0 8)) ∧
      ∀ b : Word, (∀ k, k < 3 → b ≠ a k) ∨ s.cfg.hasMemory b.toNat = false → t.readByte b = s.readByte b

/-- R232 with R242: an out-of-bounds PXADDR, PXPUT or GLYPH raises BoundsFault at either grain: ERR, ERRCODE 2, ERRINFO the
word, and nothing else: no OFFSET, no byte of memory. -/
def Obligations.OutOfBoundsRaisesBoundsFault : Prop :=
  ∀ (s : State) (g : Grain) (i : Instr),
    ((∃ sc row col, i = .pxaddr sc row col ∧ ¬ InBoundsPixel s sc row.toNat col.toNat) ∨
      (∃ sc row col, i = .pxput sc row col ∧ ¬ InBoundsPixel s sc row.toNat col.toNat) ∨
      (∃ sc char, i = .glyph sc char ∧ ¬ InBoundsGlyph s sc)) →
    runCommand g i s = .next { s with
      err := true, errCode := 2, errInfo := encode i, history := s.history ++ [.fault 2 (encode i)] }

/-- R71, U5: an in-bounds PXPUT or GLYPH with a byte address in the block's own window is refused, at either grain.
The refusal, its name and its moment are the model's (assumption log 8). -/
def Obligations.DrawingIntoWindowIsRefused : Prop :=
  ∀ (s : State) (g : Grain) (sc : Screen),
    (∀ row col : BitVec 3, InBoundsPixel s sc row.toNat col.toNat →
      (∃ k, k < 3 ∧ InWindow s.cfg
        (s.fbdraw sc + BitVec.ofNat 32 (cellOffset s sc row.toNat col.toNat + k))) →
      runCommand g (.pxput sc row col) s = .refused .windowOverlap) ∧
    (∀ char : Byte, InBoundsGlyph s sc →
      (∃ r k j, r < 8 ∧ k < 8 ∧ j < 3 ∧ glyphBit s.cfg char r k = true ∧
        InWindow s.cfg (s.fbdraw sc + BitVec.ofNat 32 (cellOffset s sc r k + j))) →
      runCommand g (.glyph sc char) s = .refused .windowOverlap)

/-- R122 (a) to (e): the consequences of the pixel address formula. -/
def Obligations.PixelAddressGeometry : Prop :=
  (∀ h posX posY row col : Nat, posY + row < h →
    pixelOffset h posX posY row col = 3 * ((posX + col) * h + (h - 1 - (posY + row)))) ∧
  (∀ h posX posY row col : Nat, pixelOffset h posX posY row col % 3 = 0) ∧
  (∀ h posX posY row col : Nat, posY + row < h →
    pixelOffset h (posX + 1) posY row col = pixelOffset h posX posY row col + 3 * h ∧
    pixelOffset h posX posY row (col + 1) = pixelOffset h posX posY row col + 3 * h) ∧
  (∀ h posX posY row col : Nat, posY + row + 1 < h →
    pixelOffset h posX (posY + 1) row col + 3 = pixelOffset h posX posY row col ∧
    pixelOffset h posX posY (row + 1) col + 3 = pixelOffset h posX posY row col) ∧
  (∀ w h x y : Nat, x < w → y < h → pixelOffset h x y 0 0 / 3 < w * h) ∧
  (∀ w h n : Nat, n < w * h → ∃ x y, x < w ∧ y < h ∧ pixelOffset h x y 0 0 / 3 = n ∧
    ∀ x' y', x' < w → y' < h → pixelOffset h x' y' 0 0 / 3 = n → x' = x ∧ y' = y) ∧
  (∀ w h : Nat, 0 < w → 0 < h →
    pixelOffset h 0 (h - 1) 0 0 = 0 ∧ pixelOffset h (w - 1) 0 0 0 = 3 * w * h - 3 ∧
    pixelOffset h 0 0 0 0 = 3 * (h - 1))

/-- R124: an in-bounds pixel's three bytes lie inside the framebuffer, below 2^32. -/
def Obligations.InBoundsPixelLiesInFramebuffer : Prop :=
  ∀ (s : State) (sc : Screen) (row col : Nat), s.cfg.Wf → row < 8 → col < 8 → InBoundsPixel s sc row col →
    cellOffset s sc row col + 2 ≤ 3 * s.cfg.width sc * s.cfg.height sc - 1 ∧
    3 * s.cfg.width sc * s.cfg.height sc - 1 < 2 ^ 32

/-- R123: the glyph's check is the check of its corner pixel and implies the check of all 64; and a pixel's check says that
its logical coordinates are on the screen (R60). -/
def Obligations.GlyphCheckCoversEveryPixel : Prop :=
  ∀ (s : State) (sc : Screen), s.cfg.Wf →
    (InBoundsGlyph s sc ↔ InBoundsPixel s sc 7 7) ∧
    (InBoundsGlyph s sc → ∀ row col, row < 8 → col < 8 → InBoundsPixel s sc row col) ∧
    ∀ row col, row < 8 → col < 8 →
      (InBoundsPixel s sc row col ↔
        s.posX.toNat + col < s.cfg.width sc ∧ s.posY.toNat + row < s.cfg.height sc)

/-- R130: after a PXPUT that is in bounds, its framebuffer placed as R70, R71 and R236 ask, the three bytes are the colour's, every
other byte is unchanged, OFFSET is the pixel's, a second PXPUT changes nothing but the history, and a PXPUT of another in-bounds
(x, y) of the screen writes other bytes. -/
def Obligations.PxputIsOnePureOverwrite : Prop :=
  ∀ (s : State) (sc : Screen) (row col : BitVec 3), s.cfg.Wf → s.memory.wf → s.Placed sc →
    InBoundsPixel s sc row.toNat col.toNat →
    s.FrameUsable sc →
    let p := cellOffset s sc row.toNat col.toNat
    ∃ t u, exec (.pxput sc row col) s = .next t ∧ exec (.pxput sc row col) t = .next u ∧
      t.offset.toNat = p ∧
      t.readByte (s.fbdraw sc + BitVec.ofNat 32 p) = some (s.color.extractLsb' 16 8) ∧
      t.readByte (s.fbdraw sc + BitVec.ofNat 32 (p + 1)) = some (s.color.extractLsb' 8 8) ∧
      t.readByte (s.fbdraw sc + BitVec.ofNat 32 (p + 2)) = some (s.color.extractLsb' 0 8) ∧
      (∀ a : Word, (a.toNat < (s.fbdraw sc).toNat + p ∨ (s.fbdraw sc).toNat + p + 2 < a.toNat) →
        t.readByte a = s.readByte a) ∧
      { u with history := t.history } = t ∧
      ∀ (x y : Word) (row' col' : BitVec 3), InBoundsPixel { s with posX := x, posY := y } sc row'.toNat col'.toNat →
        (x.toNat + col'.toNat, y.toNat + row'.toNat) ≠ (s.posX.toNat + col.toNat, s.posY.toNat + row.toNat) →
        ∀ j k, j < 3 → k < 3 →
          s.fbdraw sc + BitVec.ofNat 32 (cellOffset { s with posX := x, posY := y } sc row'.toNat col'.toNat + j) ≠
            s.fbdraw sc + BitVec.ofNat 32 (p + k)

/-! ### The glyph bit unpacker: spec/41_glyph_unpacker.md -/

/-- R141: the 64-bit view of a glyph in scan order, and the number of its pixels. -/
def Obligations.MaskIsGlyphInScanOrder : Prop :=
  ∀ (c : Config) (char : Byte),
    (∀ r k : Nat, r < 8 → k < 8 → (glyphMask c char).getLsbD (63 - (8 * r + k)) = glyphBit c char r k) ∧
    (setBits c char).length = ((List.range 64).filter fun n => (glyphMask c char).getLsbD n).length

/-- R145, first sentence: a GLYPH that does not fault writes the colour's three bytes for each set bit and no other byte, and
changes no register but OFFSET; bytes without memory are lost (R236). Its addresses must not lie in the block's own window
(R71). -/
def Obligations.GlyphWritesExactlyItsSetBits : Prop :=
  ∀ (s : State) (sc : Screen) (char : Byte), s.cfg.Wf → InBoundsGlyph s sc →
    let bit := fun r k : Nat => (s.cfg.font.getD (char.toNat * 8 + r) 0).getLsbD (7 - k)
    let a := fun r k j : Nat => s.fbdraw sc + BitVec.ofNat 32
      (3 * ((s.posX.toNat + k) * s.cfg.height sc + (s.cfg.height sc - 1 - s.posY.toNat - r)) + j)
    (∀ r k j, r < 8 → k < 8 → j < 3 → bit r k = true → ¬ InWindow s.cfg (a r k j)) →
    ∃ t, exec (.glyph sc char) s = .next t ∧
      t = { s with offset := t.offset, memory := t.memory, history := t.history } ∧
      (∀ r k, r < 8 → k < 8 → bit r k = true →
        (s.cfg.hasMemory (a r k 0).toNat = true → t.readByte (a r k 0) = some (s.color.extractLsb' 16 8)) ∧
        (s.cfg.hasMemory (a r k 1).toNat = true → t.readByte (a r k 1) = some (s.color.extractLsb' 8 8)) ∧
        (s.cfg.hasMemory (a r k 2).toNat = true → t.readByte (a r k 2) = some (s.color.extractLsb' 0 8))) ∧
      ∀ b : Word, (∀ r k j, r < 8 → k < 8 → j < 3 → bit r k = true → b ≠ a r k j) ∨ s.cfg.hasMemory b.toNat = false →
        t.readByte b = s.readByte b

/-- R145, second sentence: a GLYPH's byte addresses are pairwise distinct and lie in the framebuffer. -/
def Obligations.GlyphAddressesAreDistinctAndInFrame : Prop :=
  ∀ (s : State) (sc : Screen), s.cfg.Wf → InBoundsGlyph s sc → s.Placed sc →
    let a := fun r k j : Nat => s.fbdraw sc + BitVec.ofNat 32
      (3 * ((s.posX.toNat + k) * s.cfg.height sc + (s.cfg.height sc - 1 - s.posY.toNat - r)) + j)
    (∀ r k j, r < 8 → k < 8 → j < 3 → s.InFrame sc (a r k j)) ∧
    ∀ r k j r' k' j', r < 8 → k < 8 → j < 3 → r' < 8 → k' < 8 → j' < 3 →
      a r k j = a r' k' j' → r = r' ∧ k = k' ∧ j = j'

/-- R144, R75, R39: the bytes of a GLYPH go out row by row, column by column, bytes 23:16, 15:8, 7:0 of each pixel, and OFFSET
ends at the last set bit's pixel, or as it was if there is none. -/
def Obligations.GlyphWritesInScanOrder : Prop :=
  ∀ (s t : State) (sc : Screen) (char : Byte), InBoundsGlyph s sc → exec (.glyph sc char) s = .next t →
    (t.history = s.history ++
      (List.range 8).flatMap fun r => (List.range 8).flatMap fun k =>
        if glyphBit s.cfg char r k then
          [.memWrite (s.fbdraw sc + BitVec.ofNat 32 (cellOffset s sc r k)) (s.color.extractLsb' 16 8),
            .memWrite (s.fbdraw sc + BitVec.ofNat 32 (cellOffset s sc r k + 1)) (s.color.extractLsb' 8 8),
            .memWrite (s.fbdraw sc + BitVec.ofNat 32 (cellOffset s sc r k + 2)) (s.color.extractLsb' 0 8)]
        else []) ∧
    ((∀ r k, r < 8 → k < 8 → glyphBit s.cfg char r k = false) → t.offset = s.offset) ∧
    ∀ r k, r < 8 → k < 8 → glyphBit s.cfg char r k = true →
      (∀ r' k', r' < 8 → k' < 8 → 8 * r + k < 8 * r' + k' → glyphBit s.cfg char r' k' = false) →
      t.offset = BitVec.ofNat 32 (cellOffset s sc r k)

/-- R146: a GLYPH without a set bit still makes the extent check, and if it passes changes nothing. -/
def Obligations.EmptyGlyphStillChecksItsExtent : Prop :=
  ∀ (s : State) (sc : Screen) (char : Byte), glyphMask s.cfg char = 0 →
    (InBoundsGlyph s sc → exec (.glyph sc char) s = .next s) ∧
    (¬ InBoundsGlyph s sc → exec (.glyph sc char) s = .next { s with
      err := true, errCode := 2, errInfo := encode (.glyph sc char),
      history := s.history ++ [.fault 2 (encode (.glyph sc char))] })

/-- R147: a GLYPH in bounds is the sequence of PXPUTs of its set bits in scan order. -/
def Obligations.GlyphEqualsItsPxputSequence : Prop :=
  ∀ (s : State) (sc : Screen) (char : Byte), s.cfg.Wf → InBoundsGlyph s sc →
    exec (.glyph sc char) s = execAll ((setBits s.cfg char).map fun p => .pxput sc p.row p.col) s

/-- R67, R147: the writing commands are idempotent: repeated, they change nothing but the history. -/
def Obligations.WritingCommandsAreIdempotent : Prop :=
  ∀ (s t : State) (i : Instr),
    ((∃ sc row col, i = .pxput sc row col) ∨ (∃ sc char, i = .glyph sc char)) →
    s.memory.wf → exec i s = .next t → ∃ u, exec i t = .next u ∧ { u with history := t.history } = t

/-- R148: two GLYPHs in bounds on one screen whose extents are disjoint leave the same memory in either order. -/
def Obligations.DisjointGlyphsCommute : Prop :=
  ∀ (s : State) (sc : Screen) (c d : Byte) (x y x' y' color color' : Word),
    s.cfg.Wf → s.memory.wf →
    let at1 := fun t : State => { t with posX := x, posY := y, color := color }
    let at2 := fun t : State => { t with posX := x', posY := y', color := color' }
    InBoundsGlyph (at1 s) sc → InBoundsGlyph (at2 s) sc →
    (x.toNat + 8 ≤ x'.toNat ∨ x'.toNat + 8 ≤ x.toNat ∨ y.toNat + 8 ≤ y'.toNat ∨ y'.toNat + 8 ≤ y.toNat) →
    hitsWindow s.cfg (glyphWrites (at1 s) sc c) = false → hitsWindow s.cfg (glyphWrites (at2 s) sc d) = false →
    ∃ t1 t12 t2 t21, exec (.glyph sc c) (at1 s) = .next t1 ∧ exec (.glyph sc d) (at2 t1) = .next t12 ∧
      exec (.glyph sc d) (at2 s) = .next t2 ∧ exec (.glyph sc c) (at1 t2) = .next t21 ∧
      t12.memory = t21.memory

/-! ### The stepwise grain: spec/41_glyph_unpacker.md R143, spec/20_memory.md R66 -/

/-- R143: the command carried out bit by bit and byte by byte comes to the same state as the command in one step, within 257
steps of the sequencer (64 bits, 192 bytes, the end), and so it does in 257 steps of the machine or fewer while only the stalled
host is next; and it is refused exactly when the whole command is.
The two grains are the model's (assumption log 5). -/
def Obligations.StepwiseCommandReachesWholeCommand : Prop :=
  ∀ (s : State) (i : Instr), s.seq = .idle →
    (∀ t, exec i s = .next t → ∃ b, beginExec i s = .next b ∧ State.drawStep^[257] b = t ∧
      (agentNext s.inputs = false → ∃ n, n ≤ 257 ∧ runSteps n b = .next t)) ∧
    ∀ r, exec i s = .refused r ↔ beginExec i s = .refused r

/-- R175, R270, R66: a tick and the reset input can fall inside a command after any number n of the sequencer's turns. After the
tick the command is where n turns left it, TICK one further. The reset abandons it where it stood: every register at its reset
value, the sequencer idle, and the bytes already written still written.
The turns in the inputs and the grain are the model's (assumption log 3, 5), and so is the records' order (log 4). -/
def Obligations.TickAndResetFallInsideACommand : Prop :=
  ∀ (s b : State) (i : Instr) (n : Nat) (rest : List Input), s.cfg.Wf → s.seq = .idle → s.err = false →
    beginExec i { s with
      inputs := rest, history := s.history ++ [.regWrite 0 (encode i), .cmd (encode i)] } = .next b →
    (s.inputs = commandInput s.cfg .stepwise (encode i) :: (List.replicate n .sequencer ++ .tick :: rest) →
      runSteps (n + 2) s = .next (State.drawStep^[n] b).ticked) ∧
    (s.inputs = commandInput s.cfg .stepwise (encode i) :: (List.replicate n .sequencer ++ .reset :: rest) →
      runSteps (n + 2) s = .next { State.resetWith s.cfg with
        memory := (State.drawStep^[n] b).memory, inputs := rest, history := (State.drawStep^[n] b).history })

/-- R175, R74 (d): a ticker step and a step of a drawing command can be taken in either order: they touch different state, and
only the order of the two records shows. -/
def Obligations.TickerCommutesWithDrawing : Prop :=
  ∀ s : State,
    { s.ticked.drawStep with history := s.history } = { s.drawStep.ticked with history := s.history } ∧
    s.ticked.drawStep.history.Perm s.drawStep.ticked.history

/-! ### The frame pacer: spec/42_frame_pacer.md -/

/-- R160: FPRATE writes RATE, a rate of 0 too, and nothing else; any other word of opcode 4 raises IllegalCommand.
The place of the Cmd record of an illegal word, after RegWrite and before Fault, is the model's (assumption log 4, 11). -/
def Obligations.FprateSetsRateOnly : Prop :=
  ∀ (s : State) (rate : Byte),
    encode (.fprate rate) = 0x40000000 ||| rate.setWidth 32 ∧ exec (.fprate rate) s = .next { s with rate := rate } ∧
    (s.err = false → ∀ (g : Grain) (w : Word), w.extractLsb' 28 4 = 4 → (∀ rate', w ≠ encode (.fprate rate')) →
      RaisesIllegal g w s)

/-- R163 with R161: FPSTART latches `(F_TICK / 1024) / RATE`, zeroes TICK and sets RUN; with RATE 0 it raises RateZero and
changes DELAY, TICK and RUN not at all; any other word of opcode 5 raises IllegalCommand.
The place of the Cmd record of an illegal word, after RegWrite and before Fault, is the model's (assumption log 4, 11). -/
def Obligations.FpstartLatchesDelay : Prop :=
  ∀ s : State, encode .fpstart = 0x50000000 ∧
    (s.rate ≠ 0 → exec .fpstart s = .next { s with
      delay := BitVec.ofNat 32 (s.cfg.fTick / 1024 / s.rate.toNat), tick := 0, run := true }) ∧
    (s.rate = 0 → exec .fpstart s = .next { s with
      err := true, errCode := 3, errInfo := 0x50000000, history := s.history ++ [.fault 3 0x50000000] }) ∧
    (s.err = false → ∀ (g : Grain) (w : Word), w.extractLsb' 28 4 = 5 → w ≠ 0x50000000 → RaisesIllegal g w s)

/-- R170: an FPWAIT accepted while TICK has reached DELAY completes at once: TICK zeroed, SWAPCNT counted up modulo 2^32, one
SwapReq; RUN and all else unchanged. Otherwise the command is held and nothing else changes: it stays held while TICK is
short of DELAY, no reset coming, and completes in the same way at the first step at which TICK has reached DELAY. Any other
word of opcode 6 raises IllegalCommand.
R170 puts the completion at the ticker step itself. That it is a step of its own, before a reset that is next, is the model's
(assumption log 9).
The place of the Cmd record of an illegal word, after RegWrite and before Fault, is the model's (assumption log 4, 11). -/
def Obligations.FpwaitCompletesOrHolds : Prop :=
  ∀ s : State, encode .fpwait = 0x60000000 ∧
    (s.delay.toNat ≤ s.tick.toNat → exec .fpwait s = .next { s with
      tick := 0, swapCnt := BitVec.ofNat 32 ((s.swapCnt.toNat + 1) % 2 ^ 32), seq := .idle,
      history := s.history ++ [.swapReq] }) ∧
    (s.tick.toNat < s.delay.toNat → exec .fpwait s = .next { s with seq := .waiting }) ∧
    (s.seq = .waiting → s.tick.toNat < s.delay.toNat → resetNext s.inputs = false → ∀ t, step s = .next t →
      t.seq = .waiting ∧ t.swapCnt = s.swapCnt ∧ t.run = s.run ∧ t.delay = s.delay ∧ t.memory = s.memory) ∧
    (s.seq = .waiting → s.delay.toNat ≤ s.tick.toNat → step s = .next { s with
      tick := 0, swapCnt := BitVec.ofNat 32 ((s.swapCnt.toNat + 1) % 2 ^ 32), seq := .idle,
      history := s.history ++ [.swapReq] }) ∧
    (s.err = false → ∀ (g : Grain) (w : Word), w.extractLsb' 28 4 = 6 → w ≠ 0x60000000 → RaisesIllegal g w s)

/-- R173: FPSTOP clears RUN and changes nothing else; after a fault it is dropped; any other word of opcode 7 raises
IllegalCommand.
The place of the Cmd record of an illegal word, after RegWrite and before Fault, is the model's (assumption log 4, 11). -/
def Obligations.FpstopClearsRunOnly : Prop :=
  ∀ (s : State) (g : Grain), encode .fpstop = 0x70000000 ∧ exec .fpstop s = .next { s with run := false } ∧
    (s.err = true → acceptCommand g 0x70000000 s = .next s) ∧
    (s.err = false → ∀ w : Word, w.extractLsb' 28 4 = 7 → w ≠ 0x70000000 → RaisesIllegal g w s)

/-- R178: after FPRATE 30 and FPSTART, DELAY is F / 1024 / 30. -/
def Obligations.RateThirtyGivesItsDelay : Prop :=
  ∀ s : State, s.cfg.Wf → ∃ t u, exec (.fprate 30) s = .next t ∧ exec .fpstart t = .next u ∧
    u.delay.toNat = s.cfg.fTick / 1024 / 30 ∧ u.tick = 0 ∧ u.run = true

/-- R175: the ticker's step is enabled exactly when RUN = 1; it adds 1 to TICK modulo 2^TW and records a Tick. The schedule
can put it anywhere but inside the one moment at which a held FPWAIT completes (R170).
That ticks stand in the inputs is the model's (assumption log 3, 9). -/
def Obligations.TickerStepsWhileRunning : Prop :=
  ∀ (s : State) (rest : List Input), ¬ (s.seq = .waiting ∧ s.delay.toNat ≤ s.tick.toNat) →
    s.inputs = .tick :: rest →
    step s = .next (if s.run then { s with
      tick := BitVec.ofNat 32 ((s.tick.toNat + 1) % 2 ^ s.cfg.tickBits), inputs := rest,
      history := s.history ++ [.tick] } else { s with inputs := rest })

/-- R177: from a zeroed counter left to itself, REACHED after n ticks is 1 exactly when DELAY is at most n modulo 2^TW; so it is
never 1 if DELAY is 2^TW or more, and always 1 if DELAY is 0. -/
def Obligations.ReachedFollowsTheWrappingCounter : Prop :=
  ∀ (s : State) (n : Nat), s.cfg.Wf → s.run = true → s.tick = 0 →
    (State.ticked^[n] s).tick.toNat = n % 2 ^ s.cfg.tickBits ∧
    (Reached (State.ticked^[n] s) ↔ s.delay.toNat ≤ n % 2 ^ s.cfg.tickBits) ∧
    (2 ^ s.cfg.tickBits ≤ s.delay.toNat → ¬ Reached (State.ticked^[n] s)) ∧
    (s.delay = 0 → Reached (State.ticked^[n] s))

/-- R171, last sentence: a held FPWAIT with RUN = 1 and DELAY below 2^TW completes after exactly DELAY - TICK ticker steps of
a schedule without other agents, and changes nothing but TICK, SWAPCNT and the records.
That the ticker steps by itself here is the model's fairness (assumption log 3, 9). -/
def Obligations.HeldFpwaitCompletesWithinDelay : Prop :=
  ∀ s : State, s.cfg.Wf → s.seq = .waiting → s.run = true → s.tick.toNat < s.delay.toNat →
    s.delay.toNat < 2 ^ s.cfg.tickBits → agentNext s.inputs = false →
    runSteps (s.delay.toNat - s.tick.toNat + 1) s = .next { s with
      tick := 0, swapCnt := s.swapCnt + 1, seq := .idle,
      history := s.history ++ List.replicate (s.delay.toNat - s.tick.toNat) .tick ++ [.swapReq] }

/-- R171, first sentences: a held FPWAIT that cannot be reached never completes. With RUN = 0 no agent has a step and the model
stops as stuck; with DELAY at 2^TW or more the ticker steps on and the command stays held, ERR unchanged. In either case the
run has gone wrong (R292) and no step but a reset mends it.
The name stuckWait is the model's (assumption log 10). -/
def Obligations.UnreachableFpwaitNeverCompletes : Prop :=
  (∀ s : State, s.seq = .waiting → s.tick.toNat < s.delay.toNat → s.run = false → agentNext s.inputs = false →
    step s = .fault .stuckWait) ∧
  (∀ s t : State, s.cfg.Wf → s.seq = .waiting → s.TickOk → 2 ^ s.cfg.tickBits ≤ s.delay.toNat →
    resetNext s.inputs = false → step s = .next t →
    t.seq = .waiting ∧ t.TickOk ∧ t.delay = s.delay ∧ t.cfg = s.cfg ∧ t.swapCnt = s.swapCnt ∧ t.err = s.err ∧
      t.memory = s.memory) ∧
  ∀ s t : State, s.cfg.Wf → s.Stuck → resetNext s.inputs = false → step s = .next t →
    t.Stuck ∧ t.GoneWrong ∧ t.err = s.err ∧ t.swapCnt = s.swapCnt

/-- R171, R246: a held FPWAIT is left only by its own completion, with TICK at DELAY or past it, or by reset. That a reached hold
is left by its completion and never by a reset that is next is the model's (assumption log 9). -/
def Obligations.HeldFpwaitEndsOnlyByCompletionOrReset : Prop :=
  ∀ s t : State, s.seq = .waiting → step s = .next t → t.seq ≠ .waiting →
    (s.delay.toNat ≤ s.tick.toNat ∧ t.tick = 0 ∧ t.swapCnt = s.swapCnt + 1 ∧
      t.history = s.history ++ [.swapReq]) ∨
    (s.tick.toNat < s.delay.toNat ∧ resetNext s.inputs = true)

/-- R172: the pacing guarantee, as an invariant of every step without a host write to TICK. Of any moment n of the history at
which TICK was zero, TICK never exceeds the ticks recorded since; so whenever a step requests a swap, at least DELAY ticks
have been recorded since n. -/
def Obligations.SwapsAreAtLeastDelayTicksApart : Prop :=
  (∀ s : State, s.tick = 0 → s.Paced s.history.length) ∧
  ∀ (s t : State) (n : Nat), s.cfg.Wf → s.Paced n → writesTick s.cfg s.inputs = false → step s = .next t →
    t.Paced n ∧ (resetNext s.inputs = false → t.swapCnt ≠ s.swapCnt →
      s.delay.toNat ≤ tickCount (s.history.drop n) ∧ t.tick = 0)

/-! ### The register window: spec/10_state.md -/

/-- R38: STATUS, at offset 0x04, field by field; a read of it has no side effect and a write to it is ignored. -/
def Obligations.StatusFields : Prop :=
  ∀ s : State,
    (s.readReg .status).extractLsb' 0 1 = (if s.delay.toNat ≤ s.tick.toNat then 1 else 0) ∧
    (s.readReg .status).extractLsb' 1 1 = (if s.run then 1 else 0) ∧
    (s.readReg .status).extractLsb' 2 1 = (if s.err then 1 else 0) ∧
    (s.readReg .status).extractLsb' 3 5 = 0 ∧
    (s.readReg .status).extractLsb' 8 4 = s.errCode ∧
    (s.readReg .status).extractLsb' 12 20 = 0 ∧
    regAt 0x04 = some .status ∧
    ∀ (g : Grain) (a v : Word) (n : Nat),
      regAccess g .status (.read a n) s = .next { s with history := s.history ++ [.regRead 0x04 (s.readReg .status)] } ∧
      regAccess g .status (.write a n v) s = .next { s with history := s.history ++ [.regWrite 0x04 v] }

/-- R36, R47, R68: an aligned 32-bit read at BASE + offset returns the register there, CMD as 0, and has no other effect. -/
def Obligations.RegisterReadHasNoSideEffect : Prop :=
  ∀ (s : State) (rest : List Input) (g : Grain) (n : Nat) (v : Word), s.cfg.Wf → s.seq = .idle →
    s.inputs = .access g (.read (BitVec.ofNat 32 (s.cfg.base + n)) 4) :: rest →
    ((n, v) = (0x00, 0) ∨ (n, v) = (0x04, statusWord s) ∨ (n, v) = (0x08, s.posX) ∨ (n, v) = (0x0C, s.posY) ∨
      (n, v) = (0x10, s.color) ∨ (n, v) = (0x14, s.offset) ∨ (n, v) = (0x18, s.fbdraw0) ∨
      (n, v) = (0x1C, s.fbdraw1) ∨ (n, v) = (0x20, s.rate.setWidth 32) ∨ (n, v) = (0x24, s.delay) ∨
      (n, v) = (0x28, s.tick) ∨ (n, v) = (0x2C, s.swapCnt) ∨ (n, v) = (0x30, s.errInfo)) →
    step s = .next { s with inputs := rest, history := s.history ++ [.regRead n v] }

/-- R21, R22, R23, R40, R42, R47: an aligned 32-bit write at BASE + offset stores into the read/write registers, TICK modulo
2^TW, and changes nothing at a read-only register. -/
def Obligations.RegisterWriteStores : Prop :=
  ∀ (s t : State) (rest : List Input) (g : Grain) (n : Nat) (v : Word), s.cfg.Wf → s.seq = .idle →
    s.inputs = .access g (.write (BitVec.ofNat 32 (s.cfg.base + n)) 4 v) :: rest →
    ((n = 0x08 ∧ t = { s with posX := v }) ∨ (n = 0x0C ∧ t = { s with posY := v }) ∨
      (n = 0x10 ∧ t = { s with color := v }) ∨ (n = 0x18 ∧ t = { s with fbdraw0 := v }) ∨
      (n = 0x1C ∧ t = { s with fbdraw1 := v }) ∨
      (n = 0x28 ∧ t = { s with tick := BitVec.ofNat 32 (v.toNat % 2 ^ s.cfg.tickBits) }) ∨
      ((n = 0x04 ∨ n = 0x14 ∨ n = 0x20 ∨ n = 0x24 ∨ n = 0x2C ∨ n = 0x30) ∧ t = s)) →
    step s = .next { t with inputs := rest, history := s.history ++ [.regWrite n v] }

/-- R47, U4: an access to the window that is not 32 bits wide, not word-aligned, or to a reserved offset is refused.
The names and their order are the model's (assumption log 7). -/
def Obligations.UnsupportedAccessIsRefused : Prop :=
  ∀ (s : State) (rest : List Input) (g : Grain) (a : Access), s.seq = .idle → s.inputs = .access g a :: rest →
    InWindow s.cfg a.addr →
    (a.size ≠ 4 → step s = .refused .accessWidth) ∧
    (a.size = 4 → a.addr.toNat % 4 ≠ 0 → step s = .refused .misaligned) ∧
    (a.size = 4 → a.addr.toNat % 4 = 0 → s.cfg.base + 0x34 ≤ a.addr.toNat → step s = .refused .reservedOffset)

/-- R37, R243: while ERR = 1 a write to CMD is dropped: no effect but its RegWrite record. -/
def Obligations.CommandIsDroppedAfterFault : Prop :=
  ∀ (s : State) (rest : List Input) (g : Grain) (w : Word), s.cfg.Wf → s.seq = .idle → s.err = true →
    s.inputs = .access g (.write (BitVec.ofNat 32 s.cfg.base) 4 w) :: rest →
    step s = .next { s with inputs := rest, history := s.history ++ [.regWrite 0 w] }

/-- R37: the step at the host's write of a command word to CMD runs the command that the word spells, with ERR = 0: the access
leaves the inputs, RegWrite and Cmd are recorded, and exec says the rest, or at the stepwise grain beginExec, which carries out
every command but PXPUT and GLYPH and begins those two.
The inputs, the grain and the order of the records are the model's (assumption log 2, 4, 5). -/
def Obligations.StepRunsTheDecodedCommand : Prop :=
  ∀ (s : State) (rest : List Input) (w : Word) (i : Instr), s.cfg.Wf → s.seq = .idle → s.err = false →
    decode w = .command i →
    (s.inputs = .access .whole (.write (BitVec.ofNat 32 s.cfg.base) 4 w) :: rest →
      step s = exec i { s with inputs := rest, history := s.history ++ [.regWrite 0 w, .cmd w] }) ∧
    (s.inputs = .access .stepwise (.write (BitVec.ofNat 32 s.cfg.base) 4 w) :: rest →
      step s = beginExec i { s with inputs := rest, history := s.history ++ [.regWrite 0 w, .cmd w] })

/-- R37: State.withFetchWord puts a command where the very next step runs it, and changes nothing else.
withFetchWord is the model's own (assumption log 2), and so is the order of the records (log 4). -/
def Obligations.FetchWordRunsNext : Prop :=
  ∀ (s : State) (w : Nat) (i : Instr), s.cfg.Wf → s.seq = .idle → s.err = false → decodeTableWord 32 w = some i →
    step (s.withFetchWord 32 w) = exec i { s with
      history := s.history ++ [.regWrite 0 (BitVec.ofNat 32 w), .cmd (BitVec.ofNat 32 w)] }

/-- R30: while a command executes the host is stalled: its next access or store stays where it is.
The inputs are the model's (assumption log 2). -/
def Obligations.HostIsStalledDuringCommand : Prop :=
  ∀ s t : State, s.seq ≠ .idle → step s = .next t → agentNext s.inputs = false → t.inputs = s.inputs

/-- R222, U4: the host's own store changes one byte of bus memory and nothing else; into the window it is refused.
The refusal's name and the byte-wise stores are the model's (assumption log 7, 17). That the host's byte is lost where there is no
memory is the model's too, R236 says it of the block's bytes only (assumption log 18), and so is that the store leaves no record
(assumption log 4). -/
def Obligations.HostStoreWritesOneByte : Prop :=
  ∀ (s : State) (rest : List Input) (a : Word) (b : Byte), s.seq = .idle → s.inputs = .store a b :: rest →
    (InWindow s.cfg a → step s = .refused .accessWidth) ∧
    (¬ InWindow s.cfg a → ∃ t, step s = .next t ∧ t = { s with inputs := rest, memory := t.memory } ∧
      (s.cfg.hasMemory a.toNat = true → t.readByte a = some b) ∧
      ∀ x : Word, x ≠ a ∨ s.cfg.hasMemory x.toNat = false → t.readByte x = s.readByte x)

/-! ### Faults, reset and the whole machine -/

/-- R243, R246, R247: after a fault, in every step but a reset: ERR, ERRCODE and ERRINFO stand, no command has an effect, RUN
cannot change and no swap is requested; memory changes only by the host's own store. -/
def Obligations.FaultIsTerminalUntilReset : Prop :=
  ∀ s t : State, s.err = true → s.seq = .idle → resetNext s.inputs = false → step s = .next t →
    t.err = true ∧ t.errCode = s.errCode ∧ t.errInfo = s.errInfo ∧ t.seq = .idle ∧ t.run = s.run ∧
      t.swapCnt = s.swapCnt ∧ t.offset = s.offset ∧ t.rate = s.rate ∧ t.delay = s.delay ∧
      ((∀ a b rest, s.inputs ≠ .store a b :: rest) → t.memory = s.memory)

/-- R271 (and R270, R273): reset, whenever it comes, gives every register its reset value, makes the sequencer idle and leaves memory
as it is; STATUS then reads 1.
That a reached FPWAIT completes before the reset input is taken is the model's (assumption log 9). -/
def Obligations.ResetGivesResetValues : Prop :=
  ∀ (s : State) (rest : List Input), ¬ (s.seq = .waiting ∧ s.delay.toNat ≤ s.tick.toNat) →
    s.inputs = .reset :: rest → ∃ t, step s = .next t ∧
      t.posX = 0 ∧ t.posY = 0 ∧ t.color = 0 ∧ t.offset = 0 ∧ t.fbdraw0 = 0 ∧ t.fbdraw1 = 0 ∧ t.delay = 0 ∧ t.tick = 0 ∧
      t.swapCnt = 0 ∧ t.errInfo = 0 ∧ t.rate = s.cfg.defaultRate ∧ t.run = false ∧ t.err = false ∧ t.errCode = 0 ∧
      t.seq = .idle ∧ t.memory = s.memory ∧ t.cfg = s.cfg ∧ t.inputs = rest ∧
      t.readReg .status = 0x00000001

/-- The invariant holds right after reset, for every configuration that meets R7; so it holds at State.reset, whose
configuration is the model's choice (assumption log 1). -/
def Obligations.InvariantHoldsAtReset : Prop :=
  (∀ c : Config, c.Wf → (State.resetWith c).Inv) ∧ State.reset.Inv

/-- Every step keeps the invariant: memory in canonical form, clear of the register window (R71) and only where the bus has memory
(R236), TICK a TW-bit number
(R42), DELAY at most F_TICK / 1024 (R43), OFFSET a pixel's offset (R122, R124), ERRCODE and ERRINFO as R35, R46 and R230 have
them, no command executing after a fault (R243). -/
def Obligations.EveryStepKeepsTheInvariant : Prop :=
  ∀ s t : State, s.Inv → step s = .next t → t.Inv

/-- R25, R242: what each command can write. No command writes the operand registers or FBDRAWs; RATE is FPRATE's, DELAY
FPSTART's, RUN FPSTART's and FPSTOP's, TICK FPSTART's and FPWAIT's, SWAPCNT FPWAIT's, OFFSET and memory the drawing commands'. -/
def Obligations.CommandsWriteOnlyTheirState : Prop :=
  ∀ (i : Instr) (s t : State), exec i s = .next t →
    t.cfg = s.cfg ∧ t.posX = s.posX ∧ t.posY = s.posY ∧ t.color = s.color ∧ t.fbdraw0 = s.fbdraw0 ∧
    t.fbdraw1 = s.fbdraw1 ∧ t.inputs = s.inputs ∧
    ((∀ r, i ≠ .fprate r) → t.rate = s.rate) ∧
    (i ≠ .fpstart → t.delay = s.delay) ∧
    (i ≠ .fpstart → i ≠ .fpstop → t.run = s.run) ∧
    (i ≠ .fpstart → i ≠ .fpwait → t.tick = s.tick) ∧
    (i ≠ .fpwait → t.swapCnt = s.swapCnt ∧ t.seq = s.seq) ∧
    ((∀ sc r k, i ≠ .pxput sc r k) → (∀ sc c, i ≠ .glyph sc c) →
      t.memory = s.memory ∧ ((∀ sc r k, i ≠ .pxaddr sc r k) → t.offset = s.offset))

/-- R50, R51: a command changes no byte of bus memory outside the draw-target framebuffer of the screen that it names, where
the host has placed that framebuffer as R70 asks; and only PXPUT and GLYPH change any. -/
def Obligations.CommandsWriteOnlyTheFramebuffer : Prop :=
  ∀ (i : Instr) (s t : State), s.cfg.Wf → exec i s = .next t → ∀ a : Word, t.readByte a ≠ s.readByte a →
    ∃ sc, ((∃ row col, i = .pxput sc row col) ∨ ∃ char, i = .glyph sc char) ∧ (s.Placed sc → s.InFrame sc a)

/-- R67: the block never reads the bus space: with any other memory contents the same step is taken, and leaves the same state
but for memory. -/
def Obligations.BlockNeverReadsMemory : Prop :=
  ∀ (s : State) (m : Memory),
    (∀ t, step s = .next t → ∃ m', step { s with memory := m } = .next { t with memory := m' }) ∧
    (∀ f, step s = .fault f → step { s with memory := m } = .fault f) ∧
    ∀ r, step s = .refused r → step { s with memory := m } = .refused r

/-- R54: the parameters are fixed for a run. -/
def Obligations.ParametersNeverChange : Prop := ∀ s t : State, step s = .next t → t.cfg = s.cfg

/-! ### Host sequences: spec/43_host_sequences.md -/

/-- R190: the four accesses of DRAWGLYPH, no WR omitted (assumption log 22), write POSX, POSY and COLOR and then run the GLYPH, at the grain of the call.
The grain is the model's (assumption log 19), and so is the order of the records (log 4). -/
def Obligations.DrawGlyphSequenceRunsTheGlyph : Prop :=
  ∀ (s : State) (g : Grain) (rest : List Input) (sc : Screen) (x y color : Word) (char : Byte), s.cfg.Wf → s.seq = .idle →
    s.err = false → s.inputs = drawGlyph s.cfg g sc x y color char ++ rest →
    runSteps 4 s = runCommand g (.glyph sc char) { s with
      posX := x, posY := y, color := color, inputs := rest,
      history := s.history ++ [.regWrite 0x08 x, .regWrite 0x0C y, .regWrite 0x10 color,
        .regWrite 0x00 (encode (.glyph sc char)), .cmd (encode (.glyph sc char))] }

/-- R208, last sentence: a glyph of the layout that leaves the screen, however far, ends in a BoundsFault.
What POSX and POSY hold after a coordinate beyond 32 bits is the model's (assumption log 13), and so are the grain (log 19), the
order of the records (log 4) and that no WR is omitted (log 22). -/
def Obligations.OffscreenGlyphOfTheLayoutFaults : Prop :=
  ∀ (s : State) (g : Grain) (rest : List Input) (sc : Screen) (color : Word) (p : Placement), s.cfg.Wf → s.seq = .idle →
    s.err = false → s.inputs = placementInputs s.cfg g sc color p ++ rest →
    ¬ (p.x + 8 ≤ s.cfg.width sc ∧ p.y + 8 ≤ s.cfg.height sc) →
    runSteps 4 s = .next { s with
      posX := coordinateWord p.x, posY := coordinateWord p.y, color := color, inputs := rest,
      err := true, errCode := 2, errInfo := encode (.glyph sc p.char),
      history := s.history ++ [.regWrite 0x08 (coordinateWord p.x), .regWrite 0x0C (coordinateWord p.y),
        .regWrite 0x10 color, .regWrite 0x00 (encode (.glyph sc p.char)), .cmd (encode (.glyph sc p.char)),
        .fault 2 (encode (.glyph sc p.char))] }

/-- R209, first property, with R202: two DRAWSTRINGs of a newline advance posY by twice the line height and draw nothing. -/
def Obligations.TwoNewlinesAdvanceTwoLines : Prop :=
  ∀ (c : Config) (g : Grain) (sc : Screen) (posX posY : Nat) (color : Word), posX ≤ c.width sc →
    drawString c g sc posX posY color [0x0A] = some ([], posY + c.spacingY) ∧
    drawString c g sc posX (posY + c.spacingY) color [0x0A] = some ([], posY + 2 * c.spacingY)

/-- R209, second property, with R204 and R205: of a text without newline and tab that is longer than the usable columns, the
characters that fit are drawn along the line, and the next one wraps: drawn at column 1 of the next line, or consumed without
a glyph if it is a space. -/
def Obligations.LongTextWrapsToColumnOne : Prop :=
  ∀ (c : Config) (sc : Screen) (posX posY : Nat) (line rest : List Byte) (ch : Byte), 0 < c.spacingX →
    (∀ b ∈ line, b ≠ 0x0A ∧ b ≠ 0x09) → ch ≠ 0x0A → ch ≠ 0x09 →
    line.length = (c.width sc - posX) / c.spacingX →
    layoutText c sc posX ⟨posY, 0⟩ (line ++ ch :: rest) =
      (layoutText c sc posX ⟨posY + c.spacingY, if ch = 0x20 then 1 else 2⟩ rest).map fun q =>
        ((line.zipIdx.map fun (b, n) => (⟨b, posX + n * c.spacingX, posY⟩ : Placement)) ++
          (if ch = 0x20 then [] else [⟨ch, posX + c.spacingX, posY + c.spacingY⟩]) ++ q.1, q.2)

/-- R212: the formatted text `%d/%d` of 3 and 7 is drawn as the text `3/7`. -/
def Obligations.FormattedExampleDrawsItsText : Prop :=
  ∀ (c : Config) (g : Grain) (sc : Screen) (posX posY : Nat) (color : Word), 3 ≤ c.formatMax →
    drawFormatted c g sc posX posY color [0x25, 0x64, 0x2F, 0x25, 0x64] [3, 7] =
      drawString c g sc posX posY color [0x33, 0x2F, 0x37]

/-- R227, R221, R224: a stream of k full frames and a partial frame is played as FPRATE with the rate byte, or no FPRATE where
that byte could not be read, then FPSTART, k frames each followed by one FPWAIT, the partial frame without one, and FPSTOP, with
success; an unopenable stream yields failure and no access at all.
The targets are free arguments (assumption log 15), and the grain is the model's (log 19). -/
def Obligations.SplashWaitsOncePerFullFrame : Prop :=
  (∀ (c : Config) (g : Grain) (targets : List Word), playSplash c g targets none = some (false, [])) ∧
  ∀ (c : Config) (g : Grain) (targets : List Word) (rate : Option Byte) (frames : List (List Byte)) (part : List Byte)
    (last : Word),
    targets.length = frames.length → (∀ f ∈ frames, f.length = c.frameBytes .top) →
    part.length < c.frameBytes .top →
    playSplash c g (targets ++ [last]) (some ⟨rate, frames.flatten ++ part⟩) =
      some (true,
        (match rate with | some b => [wrCommand c g (.fprate b)] | none => []) ++ [wrCommand c g .fpstart] ++
        ((targets.zip frames).flatMap fun tf => copyFrame tf.1 tf.2 ++ [wrCommand c g .fpwait]) ++
        copyFrame last part ++ [wrCommand c g .fpstop])
end

