-- ==== Sys2Proof/Tests/Slice0.lean ====
section
/-! SUPPORT. Tests: decoding of words written out from spec/30_encoding.md, the well-formedness checks on ill-formed terms, at
most two one-step tests for each command with the expected values of spec/95_test_vectors.md (named by vector), and for each
statement of Obligations.lean that has hypotheses a witness that meets them. -/

namespace Sys2Proof.Tests

open Sys2Proof.Machine

/-! ### Helpers -/

/-- The next state, if there is one. -/
def nextOf : Outcome → Option State
  | .next t => some t
  | .fault _ => none
  | .refused _ => none

/-- The refusal, if the outcome is one. -/
def refusalOf : Outcome → Option Refusal
  | .next _ => none
  | .fault _ => none
  | .refused r => some r

/-- A configuration with two 8 by 8 screens and a 4-bit counter; F_TICK / 1024 = 10. -/
def tiny : Config := { board with
  widthBottom := 8, widthTop := 8, heightBottom := 8, heightTop := 8, fTick := 10240, tickBits := 4, base := 0x40000000 }

/-- Reset with the top screen's draw target at 0x18300000 (vectors V25 to V36). -/
def placed : State := { State.reset with fbdraw1 := 0x18300000 }

/-- The tiny block after reset, its counter running. -/
def running : State := { State.resetWith tiny with run := true, delay := 5, tick := 3 }

/-- The tiny block holding an FPWAIT. -/
def held : State := { running with seq := .waiting }

/-- The tiny block after a BoundsFault. -/
def faulted : State := { State.resetWith tiny with err := true, errCode := 2, errInfo := 0x38000002 }

/-- A GLYPH of the all-set glyph part way, one byte of a pixel still to write. -/
def midGlyph : State := { State.resetWith tiny with
  seq := .drawing .top (some (0x02, ⟨3, 5⟩)) [(0x00000010, 0xAB)], inputs := [.store 0 0] }

/-! ### Decoding, one word for each constructor, bit by bit: OPC, S, Z, ARG (R91) -/

theorem test_decode_nop : decode 0b0000_0_0000000000000000000_00000000 = .command .nop := by decide

theorem test_decode_pxaddr : decode 0b0001_1_0000000000000000000_00_110_001 = .command (.pxaddr .top 6 1) := by decide

theorem test_decode_pxput : decode 0b0010_0_0000000000000000000_00_001_100 = .command (.pxput .bottom 1 4) := by decide

theorem test_decode_glyph : decode 0b0011_1_0000000000000000000_01000001 = .command (.glyph .top 0x41) := by decide

theorem test_decode_fprate : decode 0b0100_0_0000000000000000000_10000011 = .command (.fprate 131) := by decide

theorem test_decode_fpstart : decode 0b0101_0_0000000000000000000_00000000 = .command .fpstart := by decide

theorem test_decode_fpwait : decode 0b0110_0_0000000000000000000_00000000 = .command .fpwait := by decide

theorem test_decode_fpstop : decode 0b0111_0_0000000000000000000_00000000 = .command .fpstop := by decide

/-- V10. -/
theorem test_decode_reserved_opcode :
    decode 0x80000000 = .illegal .reservedOpcode ∧ decode 0xFFFFFFFF = .illegal .reservedOpcode := by decide

/-- V11 and V12. -/
theorem test_decode_reserved_bits :
    decode 0x00000001 = .illegal .reservedBits ∧ decode 0x08000000 = .illegal .reservedBits ∧
    decode 0x58000000 = .illegal .reservedBits ∧ decode 0x6000000A = .illegal .reservedBits ∧
    decode 0x20000040 = .illegal .reservedBits ∧ decode 0x10000100 = .illegal .reservedBits ∧
    decode 0x30000100 = .illegal .reservedBits ∧ decode 0x4800001E = .illegal .reservedBits := by decide

theorem test_decodeTableWord :
    decodeTableWord 32 0x2800001D = some (.pxput .top 3 5) ∧ decodeTableWord 32 0x80000000 = none := by decide

/-! ### Well-formedness: one ill-formed term for each check -/

theorem test_wf_board : board.Wf := by decide +kernel

theorem test_wf_tiny : tiny.Wf := by decide +kernel

theorem test_wf_narrow_screen : ¬ ({ tiny with widthTop := 7 } : Config).ScreenHoldsGlyph .top := by decide

theorem test_wf_low_screen : ¬ ({ tiny with heightBottom := 7 } : Config).ScreenHoldsGlyph .bottom := by decide

theorem test_wf_huge_frame : ¬ ({ tiny with widthTop := 2 ^ 20, heightTop := 2 ^ 11 } : Config).FrameFits .top := by decide

theorem test_wf_zero_frequency : ¬ ({ tiny with fTick := 0 } : Config).FTickOk := by decide

theorem test_wf_fast_frequency : ¬ ({ tiny with fTick := 2 ^ 32 } : Config).FTickOk := by decide

theorem test_wf_no_tick_bits : ¬ ({ tiny with tickBits := 0 } : Config).TickBitsOk := by decide

theorem test_wf_many_tick_bits : ¬ ({ tiny with tickBits := 33 } : Config).TickBitsOk := by decide

theorem test_wf_unaligned_base : ¬ ({ tiny with base := 0x40000020 } : Config).BaseAligned := by decide

theorem test_wf_high_base : ¬ ({ tiny with base := 2 ^ 32 } : Config).BaseFits := by decide

theorem test_wf_short_font : ¬ ({ tiny with font := [] } : Config).FontComplete := by decide

theorem test_wf_access : (Access.read 0x40000030 4).Wf tiny := by decide

theorem test_wf_access_outside : ¬ (Access.read 0x40000040 4).ToWindow tiny := by decide

theorem test_wf_access_narrow : ¬ (Access.write 0x40000008 2 0).WordWide := by decide

theorem test_wf_access_misaligned : ¬ (Access.read 0x40000006 4).Aligned := by decide

theorem test_wf_access_reserved : ¬ (Access.read 0x40000034 4).NotReserved tiny := by decide

/-! ### One step of each command -/

theorem test_nop : nextOf (exec .nop running) = some running := rfl

/-- V18. -/
theorem test_pxaddr_V18 :
    (nextOf (exec (.pxaddr .top 3 5) { State.reset with posX := 10, posY := 20 })).map (·.offset) = some 11448 := by
  decide

/-- V23. -/
theorem test_pxaddr_V23 :
    (nextOf (exec (.pxaddr .top 0 7) { State.reset with posX := 393 })).map
      (fun t => (t.offset, statusWord t, t.errInfo)) = some (0, 0x00000205, 0x18000007) := by decide

/-- V26: bits 31:24 of COLOR are ignored. -/
theorem test_pxput_V26 :
    (nextOf (exec (.pxput .top 0 0) { placed with color := 0xAB123456 })).map (fun t => (t.offset, t.memory)) =
      some (717, [(0x183002CD, 0x12), (0x183002CE, 0x34), (0x183002CF, 0x56)]) := by decide

/-- V29b: the address wraps modulo 2^32. -/
theorem test_pxput_V29b :
    (nextOf (exec (.pxput .top 0 0) { State.reset with fbdraw1 := 0xFFFFFF00, color := 0x00AABBCC })).map (·.memory) =
      some [(0x1CD, 0xAA), (0x1CE, 0xBB), (0x1CF, 0xCC)] := by decide

/-- V30. -/
theorem test_glyph_V30 :
    (nextOf (exec (.glyph .top 0x01) { placed with color := 0x00FFFFFF })).map (fun t => (t.offset, t.memory)) =
      some (5736, [(0x183002CD, 0xFF), (0x183002CE, 0xFF), (0x183002CF, 0xFF),
        (0x18301668, 0xFF), (0x18301669, 0xFF), (0x1830166A, 0xFF)]) := by decide +kernel

/-- V31: the pixel offsets of rows 0 and 1 in scan order, 84 writes in all. -/
theorem test_glyph_V31 :
    (nextOf (exec (.glyph .top 0x41) { placed with color := 0x00112233 })).map
      (fun t => (t.offset, t.memory.length, t.history.length, t.history.take 4)) =
      some (5019, 84, 84, [.memWrite (0x18300000 + 2877) 0x11, .memWrite (0x18300000 + 2878) 0x22,
        .memWrite (0x18300000 + 2879) 0x33, .memWrite (0x18300000 + 3597) 0x11]) := by decide +kernel

/-- V39. -/
theorem test_fprate_V39 :
    (nextOf (exec (.fprate 30) State.reset)).map (fun t => (t.rate, t.delay, t.tick, t.run)) = some (30, 0, 0, false) := by
  decide

/-- V40. -/
theorem test_fpstart_V40 :
    (nextOf (exec .fpstart { State.reset with rate := 30 })).map (fun t => (t.delay, t.tick, statusWord t)) =
      some (2181, 0, 0x00000002) := by decide

/-- V45. -/
theorem test_fpstart_V45 :
    (nextOf (exec .fpstart { State.reset with rate := 0 })).map
      (fun t => (t.delay, t.run, t.errInfo, statusWord t)) = some (0, false, 0x50000000, 0x00000305) := by decide

/-- V42. -/
theorem test_fpwait_V42 :
    (nextOf (exec .fpwait { State.reset with delay := 2181, tick := 3000, run := true })).map
      (fun t => (t.tick, t.swapCnt, t.seq, t.history)) = some (0, 1, .idle, [.swapReq]) := by decide

/-- V41: held, not completed. -/
theorem test_fpwait_V41 :
    (nextOf (exec .fpwait { State.reset with delay := 2181, tick := 2000, run := true })).map
      (fun t => (t.tick, t.swapCnt, t.seq, t.history)) = some (2000, 0, .waiting, []) := by decide

/-- V43. -/
theorem test_fpstop_V43 :
    (nextOf (exec .fpstop { State.reset with run := true, tick := 77 })).map (fun t => (t.run, t.tick)) =
      some (false, 77) := by decide

/-- The host's first command after reset: `WR CMD, 0x38000001` runs the GLYPH. -/
theorem test_step_first_command :
    (nextOf (step (State.reset.withFetchWord 32 0x38000001))).map (fun t => (t.offset, t.memory.length, t.inputs)) =
      some (5736, 6, []) := by decide +kernel

/-- R236: of the three bytes of a PXPUT the one at an address without memory is lost. -/
theorem test_pxput_lost_byte :
    (nextOf (exec (.pxput .top 0 0) { placed with
      cfg := { board with ram := [⟨0x18300000, 0x2CE⟩, ⟨0x183002CF, 1⟩] }, color := 0x123456 })).map (·.memory) =
      some [(0x183002CD, 0x12), (0x183002CF, 0x56)] := by decide

/-- R175, R270: a GLYPH at the stepwise grain, a tick after its first byte, the reset after its second. -/
def scheduledGlyph : State := { running with inputs :=
  [commandInput tiny .stepwise 0x38000001, .sequencer, .sequencer, .tick, .sequencer, .reset, .store 0 0] }

theorem test_tick_and_reset_inside_glyph :
    (match runSteps 6 scheduledGlyph with
      | .next t => some (t.memory.length, t.seq, t.tick, t.history.drop 2, t.inputs)
      | .fault _ => none
      | .refused _ => none) =
      some (2, .idle, 0, [.memWrite 21 0, .tick, .memWrite 22 0], [.store 0 0]) := by decide +kernel

/-- V10 at the step: a reserved opcode written to CMD. -/
theorem test_step_illegal_word :
    (nextOf (step { State.reset with inputs := [commandInput board .stepwise 0x80000000] })).map
      (fun t => (statusWord t, t.errInfo, t.history, t.inputs)) =
      some (0x00000105, 0x80000000, [.regWrite 0 0x80000000, .cmd 0x80000000, .fault 1 0x80000000], []) := by decide

/-- V50: a host write to TICK keeps its low 16 bits. -/
theorem test_write_tick_V50 :
    (nextOf (step { State.reset with
      delay := 2181, run := true, inputs := [.access .whole (.write 0x10000028 4 0x00012345)] })).map
      (fun t => (t.tick, statusWord t)) = some (0x2345, 0x00000003) := by decide +kernel

/-! ### Host sequences: vectors of section 2.6 -/

/-- V55: the space that triggers the wrap is skipped, column stays 1. -/
theorem test_layout_V55 :
    layoutText board .top 360 ⟨50, 0⟩ [0x41, 0x42, 0x43, 0x44, 0x45, 0x20, 0x46, 0x47] =
      some ([⟨0x41, 360, 50⟩, ⟨0x42, 368, 50⟩, ⟨0x43, 376, 50⟩, ⟨0x44, 384, 50⟩, ⟨0x45, 392, 50⟩, ⟨0x46, 368, 60⟩,
        ⟨0x47, 376, 60⟩], 60) := by decide

/-- V57b: tabs pass the usable columns without wrapping. -/
theorem test_layout_V57b :
    layoutText board .top 360 ⟨50, 0⟩ [0x41, 0x42, 0x43, 0x44, 0x09, 0x09, 0x45] =
      some ([⟨0x41, 360, 50⟩, ⟨0x42, 368, 50⟩, ⟨0x43, 376, 50⟩, ⟨0x44, 384, 50⟩, ⟨0x45, 368, 60⟩], 60) := by decide

/-- V59: the formatted text. -/
theorem test_format_V59 :
    formatTemplate false [0x25, 0x64, 0x2F, 0x25, 0x64] [3, 7] = some [0x33, 0x2F, 0x37] ∧
    formatTemplate false [0x25, 0x64] [120] = some [0x31, 0x32, 0x30] ∧
    formatTemplate false [0x25, 0x78] [3] = none := by decide

/-! ### Witnesses: for each statement with hypotheses, a state and operands that meet them together -/

theorem witness_EncodeOfDecode : decode 0xF8FFFFFF ≠ .command .nop ∧ decode 0x1800003F = .command (.pxaddr .top 7 7) := by
  decide

theorem witness_ReservedOpcode : running.err = false ∧ 0x80000000 ≤ (0x80000000 : Word).toNat := by decide

/-- For the step clauses of RaisesIllegal: an idle block, the host's write of the word next. -/
theorem witness_RaisesIllegal :
    let s : State := { running with inputs := [commandInput tiny .whole 0x80000000] }
    s.cfg.Wf ∧ s.seq = .idle ∧ s.err = false ∧ s.inputs = commandInput s.cfg .whole 0x80000000 :: [] :=
  ⟨test_wf_tiny, by decide⟩

theorem witness_ReservedBit : running.err = false ∧
    ∀ w ∈ ([0x70000100, 0x04000000, 0x08000000, 0x50000080, 0x68000000, 0x70000001, 0x10000040, 0x20000080,
        0x48000000] : List Word),
      w.toNat < 0x80000000 ∧
      (w.extractLsb' 8 19 ≠ 0 ∨
        ((w.extractLsb' 28 4 = 0 ∨ w.extractLsb' 28 4 = 5 ∨ w.extractLsb' 28 4 = 6 ∨ w.extractLsb' 28 4 = 7) ∧
          (w.extractLsb' 27 1 ≠ 0 ∨ w.extractLsb' 0 8 ≠ 0)) ∨
        ((w.extractLsb' 28 4 = 1 ∨ w.extractLsb' 28 4 = 2) ∧ w.extractLsb' 6 2 ≠ 0) ∨
        (w.extractLsb' 28 4 = 4 ∧ w.extractLsb' 27 1 ≠ 0)) := by
  refine ⟨rfl, fun w hw => ?_⟩
  simp only [List.mem_cons, List.not_mem_nil, or_false] at hw
  rcases hw with rfl | rfl | rfl | rfl | rfl | rfl | rfl | rfl | rfl <;> decide

/-- For the statements NopChangesNothing, PxaddrComputesOffset and those of the pacer commands: a malformed word of each opcode
that has one, ERR = 0; and a state with ERR = 1. -/
theorem witness_MalformedWords : running.err = false ∧ faulted.err = true ∧
    ((0x00000001 : Word).extractLsb' 28 4 = 0 ∧ (0x00000001 : Word) ≠ 0) ∧
    ((0x10000100 : Word).extractLsb' 28 4 = 1 ∧
      ∀ sc row col, (0x10000100 : Word) ≠ encode (.pxaddr sc row col)) ∧
    ((0x48000000 : Word).extractLsb' 28 4 = 4 ∧ ∀ rate, (0x48000000 : Word) ≠ encode (.fprate rate)) ∧
    ((0x50000001 : Word).extractLsb' 28 4 = 5 ∧ (0x50000001 : Word) ≠ 0x50000000) ∧
    ((0x68000000 : Word).extractLsb' 28 4 = 6 ∧ (0x68000000 : Word) ≠ 0x60000000) ∧
    ((0x70000100 : Word).extractLsb' 28 4 = 7 ∧ (0x70000100 : Word) ≠ 0x70000000) := by
  refine ⟨rfl, rfl, by decide, ⟨by decide, fun sc row col h => ?_⟩, ⟨by decide, fun rate h => ?_⟩, by decide, by decide,
    by decide⟩
  · have h8 := congrArg (fun w : Word => w.getLsbD 8) h
    cases sc <;> simp [encode, Screen.field, Screen.toBit, cellField] at h8
  · have h27 := congrArg (fun w : Word => w.getLsbD 27) h
    simp [encode] at h27

/-- The last position inside and the first one outside. -/
theorem witness_PxaddrComputesOffset :
    InBoundsPixel { running with posX := 1, posY := 4 } .top 3 6 ∧
    ¬ InBoundsPixel { running with posX := 2, posY := 4 } .top 3 6 := by decide

theorem witness_PxputWritesOnePixel :
    InBoundsPixel { running with posX := 1, posY := 4 } .top 3 6 ∧
    ∀ k, k < 3 → ¬ InWindow tiny (({ running with posX := 1, posY := 4 } : State).fbdraw .top +
      BitVec.ofNat 32 (cellOffset { running with posX := 1, posY := 4 } .top 3 6 + k)) := by decide

theorem witness_OutOfBounds :
    ¬ InBoundsPixel { running with posX := 1 } .top 0 7 ∧ ¬ InBoundsPixel { running with posY := 1 } .bottom 7 0 ∧
    ¬ InBoundsGlyph { running with posX := 1 } .top := by decide

/-- Only the last byte of the pixel falls on the first byte of the window. -/
theorem witness_DrawingIntoWindow :
    InBoundsPixel { running with fbdraw1 := 0x3FFFFFE9 } .top 0 0 ∧
    InWindow tiny (({ running with fbdraw1 := 0x3FFFFFE9 } : State).fbdraw .top +
      BitVec.ofNat 32 (cellOffset { running with fbdraw1 := 0x3FFFFFE9 } .top 0 0 + 2)) ∧
    InBoundsGlyph { running with fbdraw1 := 0x3FFFFFE9 } .top ∧ glyphBit tiny 0x01 0 0 = true := by decide +kernel

theorem witness_PixelAddressGeometry :
    ((0 : Nat) + 7 < 8) ∧ ((0 : Nat) + 6 + 1 < 8) ∧ ((7 : Nat) < 8) ∧ ((63 : Nat) < 8 * 8) ∧ ((0 : Nat) < 8) := by decide

theorem witness_InBoundsPixelLiesInFramebuffer : running.cfg.Wf ∧ InBoundsPixel running .bottom 7 7 :=
  ⟨test_wf_tiny, by decide⟩

theorem witness_GlyphCheck :
    running.cfg.Wf ∧ InBoundsGlyph running .top ∧ ¬ InBoundsGlyph { running with posY := 1 } .top :=
  ⟨test_wf_tiny, by decide⟩

/-- The framebuffer ends at the top of the address space. -/
theorem witness_PxputIsOnePureOverwrite :
    let s : State := { running with fbdraw1 := 0xFFFFFF40 }
    s.cfg.Wf ∧ s.memory.wf ∧ s.Placed .top ∧ InBoundsPixel s .top 0 7 ∧
      (InBoundsPixel { s with posX := 1, posY := 0 } .top 7 0 ∧ (1 + 0, 0 + 7) ≠ (0 + 7, 0 + 0)) ∧
      s.FrameUsable .top := by
  refine ⟨test_wf_tiny, by decide, by decide, by decide, by decide, fun a h => ⟨fun w => ?_, ?_⟩⟩
  · have h1 : 0xFFFFFF40 ≤ a.toNat := h.1
    have h2 : a.toNat < 0x40000000 + 64 := w.2
    omega
  · simp [Config.hasMemory, running, State.resetWith, tiny, board, a.isLt]

theorem witness_GlyphWritesExactlyItsSetBits :
    running.cfg.Wf ∧ InBoundsGlyph running .top ∧
    ∀ r k j, r < 8 → k < 8 → j < 3 → (running.cfg.font.getD ((0x02 : Byte).toNat * 8 + r) 0).getLsbD (7 - k) = true →
      ¬ InWindow running.cfg (running.fbdraw .top + BitVec.ofNat 32
        (3 * ((running.posX.toNat + k) * running.cfg.height .top +
          (running.cfg.height .top - 1 - running.posY.toNat - r)) + j)) := by
  have h : ∀ r < 8, ∀ k < 8, ∀ j < 3,
      (running.cfg.font.getD ((0x02 : Byte).toNat * 8 + r) 0).getLsbD (7 - k) = true →
      ¬ InWindow running.cfg (running.fbdraw .top + BitVec.ofNat 32
        (3 * ((running.posX.toNat + k) * running.cfg.height .top +
          (running.cfg.height .top - 1 - running.posY.toNat - r)) + j)) := by decide +kernel
  exact ⟨test_wf_tiny, by decide, fun r k j hr hk hj => h r hr k hk j hj⟩

theorem witness_GlyphAddresses : running.cfg.Wf ∧ InBoundsGlyph running .top ∧ running.Placed .top :=
  ⟨test_wf_tiny, by decide, by decide⟩

/-- The all-clear glyph, and the glyph whose last set bit is the last of the scan. -/
theorem witness_GlyphWritesInScanOrder :
    InBoundsGlyph running .top ∧ (∃ t, exec (.glyph .top 0x00) running = .next t) ∧
    (∀ r < 8, ∀ k < 8, glyphBit running.cfg 0x00 r k = false) ∧
    (∃ t, exec (.glyph .top 0x01) running = .next t) ∧ glyphBit running.cfg 0x01 7 7 = true ∧
    (∀ r' k', r' < 8 → k' < 8 → 8 * 7 + 7 < 8 * r' + k' → glyphBit running.cfg 0x01 r' k' = false) :=
  ⟨by decide, ⟨_, rfl⟩, by decide +kernel, ⟨_, rfl⟩,
    by decide +kernel, fun r' k' _ _ _ => by omega⟩

theorem witness_EmptyGlyph :
    glyphMask running.cfg 0x20 = 0 ∧ InBoundsGlyph running .top ∧ ¬ InBoundsGlyph { running with posX := 1 } .top := by
  decide +kernel

theorem witness_GlyphEqualsItsPxputSequence : running.cfg.Wf ∧ InBoundsGlyph running .bottom :=
  ⟨test_wf_tiny, by decide⟩

theorem witness_WritingCommandsAreIdempotent :
    running.memory.wf ∧ (∃ t, exec (.pxput .top 7 7) running = .next t) ∧
    (∃ t, exec (.glyph .bottom 0x01) running = .next t) :=
  ⟨by decide, ⟨_, rfl⟩, ⟨_, rfl⟩⟩

/-- Two glyphs side by side, their extents touching. -/
theorem witness_DisjointGlyphsCommute :
    let s := State.reset
    s.cfg.Wf ∧ s.memory.wf ∧ InBoundsGlyph { s with posX := 16, posY := 232 } .top ∧
    InBoundsGlyph { s with posX := 24, posY := 232 } .top ∧ (16 : Word).toNat + 8 ≤ (24 : Word).toNat ∧
    hitsWindow s.cfg (glyphWrites { s with posX := 16, posY := 232 } .top 0x02) = false ∧
    hitsWindow s.cfg (glyphWrites { s with posX := 24, posY := 232 } .top 0x41) = false := by decide +kernel

theorem witness_StepwiseCommand :
    running.seq = .idle ∧ agentNext running.inputs = false ∧ (∃ t, exec (.glyph .top 0x01) running = .next t) ∧
    refusalOf (exec (.glyph .top 0x41) { running with fbdraw1 := 0x40000000 }) = some .windowOverlap :=
  ⟨by decide, by decide, ⟨_, rfl⟩, by decide +kernel⟩

/-- Two turns into a PXPUT, a tick and the reset next. -/
theorem witness_TickAndResetFallInside :
    let s : State := { running with inputs := commandInput tiny .stepwise 0x28000000 :: [.sequencer, .sequencer, .tick] }
    let u : State := { running with inputs := commandInput tiny .stepwise 0x28000000 :: [.sequencer, .sequencer, .reset] }
    (s.cfg.Wf ∧ s.seq = .idle ∧ s.err = false ∧
      s.inputs = commandInput s.cfg .stepwise (encode (.pxput .top 0 0)) :: (List.replicate 2 .sequencer ++ .tick :: [])) ∧
    u.inputs = commandInput u.cfg .stepwise (encode (.pxput .top 0 0)) :: (List.replicate 2 .sequencer ++ .reset :: []) ∧
    ∃ b, beginExec (.pxput .top 0 0) { s with
      inputs := [], history := s.history ++ [.regWrite 0 (encode (.pxput .top 0 0)), .cmd (encode (.pxput .top 0 0))] } =
      .next b ∧ b.seq ≠ .idle :=
  ⟨⟨test_wf_tiny, by decide⟩, by decide, ⟨_, rfl, by decide⟩⟩

theorem witness_FpstartLatchesDelay : running.rate ≠ 0 ∧ ({ running with rate := 0 } : State).rate = 0 := by decide

/-- TICK one short of DELAY, and at it. -/
theorem witness_FpwaitCompletesOrHolds :
    ({ running with tick := 4 } : State).tick.toNat < running.delay.toNat ∧
    running.delay.toNat ≤ ({ running with tick := 5 } : State).tick.toNat ∧
    held.seq = .waiting ∧ held.tick.toNat < held.delay.toNat ∧ resetNext held.inputs = false ∧
    held.delay.toNat ≤ ({ held with tick := 5 } : State).tick.toNat := by decide

theorem witness_RateThirty : running.cfg.Wf := test_wf_tiny

theorem witness_TickerSteps :
    ¬ (held.seq = .waiting ∧ held.delay.toNat ≤ held.tick.toNat) ∧
    ({ held with inputs := [.tick] } : State).inputs = .tick :: [] := by decide

theorem witness_ReachedFollowsTheWrappingCounter :
    running.cfg.Wf ∧ running.run = true ∧ ({ running with tick := 0 } : State).tick = 0 ∧
    2 ^ running.cfg.tickBits ≤ ({ running with tick := 0, delay := 16 } : State).delay.toNat ∧
    ({ running with tick := 0, delay := 0 } : State).delay = 0 :=
  ⟨test_wf_tiny, by decide⟩

/-- The largest DELAY the 4-bit counter can reach. -/
theorem witness_HeldFpwaitCompletes :
    let s : State := { held with delay := 15, tick := 0 }
    s.cfg.Wf ∧ s.seq = .waiting ∧ s.run = true ∧ s.tick.toNat < s.delay.toNat ∧
    s.delay.toNat < 2 ^ s.cfg.tickBits ∧ agentNext s.inputs = false :=
  ⟨test_wf_tiny, by decide⟩

/-- Stopped; and DELAY the smallest value the 4-bit counter cannot reach. -/
theorem witness_UnreachableFpwait :
    (held.seq = .waiting ∧ held.tick.toNat < held.delay.toNat ∧ ({ held with run := false } : State).run = false ∧
      agentNext held.inputs = false) ∧
    (({ held with delay := 16 } : State).cfg.Wf ∧ ({ held with delay := 16 } : State).TickOk ∧
      2 ^ held.cfg.tickBits ≤ ({ held with delay := 16 } : State).delay.toNat ∧
      resetNext held.inputs = false) ∧
    (∃ t, step { held with delay := 16 } = .next t) ∧
    (held.cfg.Wf ∧ ({ held with delay := 16 } : State).Stuck ∧ ({ held with run := false } : State).Stuck ∧
      ({ held with run := false, inputs := [.tick] } : State).Stuck) :=
  ⟨by decide, ⟨test_wf_tiny, by decide⟩, ⟨_, rfl⟩, test_wf_tiny, by decide⟩

theorem witness_HeldFpwaitEnds :
    held.seq = .waiting ∧ (∃ t, step { held with tick := 5 } = .next t ∧ decide (t.seq ≠ .waiting) = true) ∧
    ∃ t, step { held with inputs := [.reset] } = .next t ∧ decide (t.seq ≠ .waiting) = true :=
  ⟨by decide, ⟨_, rfl, by decide⟩,
    ⟨_, rfl, by decide⟩⟩

/-- Three ticks recorded since FPSTART, TICK at 3 and DELAY 3: the held FPWAIT completes. -/
theorem witness_SwapsAreAtLeastDelayTicksApart :
    let s : State := { held with delay := 3, history := [.cmd 0x50000000, .tick, .tick, .tick] }
    s.cfg.Wf ∧ s.Paced 1 ∧ writesTick s.cfg s.inputs = false ∧ resetNext s.inputs = false ∧
    ({ running with tick := 0 } : State).tick = 0 ∧
    ∃ t, step s = .next t ∧ decide (t.swapCnt ≠ s.swapCnt) = true :=
  ⟨test_wf_tiny, by decide, by decide, by decide, by decide,
    ⟨_, rfl, by decide⟩⟩

/-- The first and the last register of the window. -/
theorem witness_RegisterRead :
    running.cfg.Wf ∧ running.seq = .idle ∧
    ({ running with inputs := [.access .whole (.read 0x40000000 4)] } : State).inputs =
      .access .whole (.read (BitVec.ofNat 32 (tiny.base + 0x00)) 4) :: [] ∧
    ({ running with inputs := [.access .whole (.read 0x40000030 4)] } : State).inputs =
      .access .whole (.read (BitVec.ofNat 32 (tiny.base + 0x30)) 4) :: [] :=
  ⟨test_wf_tiny, by decide⟩

theorem witness_RegisterWrite :
    running.cfg.Wf ∧ running.seq = .idle ∧
    ({ running with inputs := [.access .stepwise (.write 0x40000028 4 0xFFFFFFFF)] } : State).inputs =
      .access .stepwise (.write (BitVec.ofNat 32 (tiny.base + 0x28)) 4 0xFFFFFFFF) :: [] :=
  ⟨test_wf_tiny, by decide⟩

/-- Each clause at an edge of the window. -/
theorem witness_UnsupportedAccess :
    running.seq = .idle ∧
    (InWindow running.cfg (Access.read 0x4000003F 1).addr ∧ (Access.read 0x4000003F 1).size ≠ 4) ∧
    (InWindow running.cfg (Access.read 0x40000001 4).addr ∧ (Access.read 0x40000001 4).addr.toNat % 4 ≠ 0) ∧
    (InWindow running.cfg (Access.write 0x40000034 4 0).addr ∧ (Access.write 0x40000034 4 0).addr.toNat % 4 = 0 ∧
      running.cfg.base + 0x34 ≤ (Access.write 0x40000034 4 0).addr.toNat) := by decide

theorem witness_CommandIsDropped :
    faulted.cfg.Wf ∧ faulted.seq = .idle ∧ faulted.err = true ∧
    ({ faulted with inputs := [commandInput tiny .whole 0x50000000] } : State).inputs =
      .access .whole (.write (BitVec.ofNat 32 tiny.base) 4 0x50000000) :: [] :=
  ⟨test_wf_tiny, by decide⟩

theorem witness_StepRunsTheDecodedCommand :
    running.cfg.Wf ∧ running.seq = .idle ∧ running.err = false ∧
    ({ running with inputs := [commandInput tiny .whole 0x70000000] } : State).inputs =
      .access .whole (.write (BitVec.ofNat 32 tiny.base) 4 0x70000000) :: [] ∧
    ({ running with inputs := [commandInput tiny .stepwise 0x70000000] } : State).inputs =
      .access .stepwise (.write (BitVec.ofNat 32 tiny.base) 4 0x70000000) :: [] ∧
    decode 0x70000000 = .command .fpstop :=
  ⟨test_wf_tiny, by decide⟩

theorem witness_FetchWordRunsNext :
    State.reset.cfg.Wf ∧ State.reset.seq = .idle ∧ State.reset.err = false ∧
    decodeTableWord 32 0x38000041 = some (.glyph .top 0x41) :=
  ⟨test_wf_board, by decide⟩

theorem witness_HostIsStalled :
    midGlyph.seq ≠ .idle ∧ agentNext midGlyph.inputs = false ∧ ∃ t, step midGlyph = .next t :=
  ⟨by decide, by decide, ⟨_, rfl⟩⟩

/-- The last byte of the window, and the byte after it. -/
theorem witness_HostStore :
    running.seq = .idle ∧ ({ running with inputs := [.store 0x40000040 7] } : State).inputs = .store 0x40000040 7 :: [] ∧
    InWindow running.cfg 0x4000003F ∧ ¬ InWindow running.cfg 0x40000040 := by decide

theorem witness_FaultIsTerminal :
    let s : State := { faulted with inputs := [commandInput tiny .whole 0x60000000] }
    s.err = true ∧ s.seq = .idle ∧ resetNext s.inputs = false ∧ (∀ a b rest, s.inputs ≠ .store a b :: rest) ∧
    ∃ t, step s = .next t :=
  ⟨by decide, by decide, by decide, fun a b rest h => by simp [commandInput] at h,
    ⟨_, rfl⟩⟩

/-- Reset inside a held FPWAIT and inside a GLYPH part way. -/
theorem witness_ResetGivesResetValues :
    (¬ (held.seq = .waiting ∧ held.delay.toNat ≤ held.tick.toNat) ∧
      ({ held with inputs := [.reset] } : State).inputs = .reset :: []) ∧
    ¬ (midGlyph.seq = .waiting ∧ midGlyph.delay.toNat ≤ midGlyph.tick.toNat) := by decide

theorem witness_InvariantHoldsAtReset : board.Wf := test_wf_board

theorem witness_EveryStepKeepsTheInvariant :
    midGlyph.Inv ∧ held.Inv ∧ faulted.Inv ∧ (∃ t, step midGlyph = .next t) ∧ ∃ t, step held = .next t :=
  ⟨by decide +kernel, by decide +kernel, by decide +kernel, ⟨_, rfl⟩,
    ⟨_, rfl⟩⟩

theorem witness_CommandsWriteOnlyTheirState :
    (∃ t, exec .nop running = .next t) ∧ (∃ t, exec (.fprate 9) running = .next t) ∧ ∃ t, exec .fpwait running = .next t :=
  ⟨⟨_, rfl⟩, ⟨_, rfl⟩, ⟨_, rfl⟩⟩

theorem witness_CommandsWriteOnlyTheFramebuffer :
    running.cfg.Wf ∧ running.Placed .top ∧
    ∃ t, exec (.pxput .top 0 0) running = .next t ∧ decide (t.readByte 21 ≠ running.readByte 21) = true :=
  ⟨test_wf_tiny, by decide,
    ⟨_, rfl, by decide⟩⟩

theorem witness_BlockNeverReadsMemory :
    (∃ t, step midGlyph = .next t) ∧ step { held with run := false } = .fault .stuckWait ∧
    refusalOf (step { running with inputs := [.store 0x40000000 1] }) = some .accessWidth :=
  ⟨⟨_, rfl⟩, rfl, by decide +kernel⟩

theorem witness_ParametersNeverChange : ∃ t, step midGlyph = .next t := ⟨_, rfl⟩

theorem witness_DrawGlyphSequence :
    State.reset.cfg.Wf ∧ State.reset.seq = .idle ∧ State.reset.err = false ∧
    ({ State.reset with inputs := drawGlyph board .stepwise .top 392 232 7 0x41 } : State).inputs =
      drawGlyph State.reset.cfg .stepwise .top 392 232 7 0x41 ++ [] :=
  ⟨test_wf_board, by decide⟩

/-- A glyph one pixel too low, and one whose coordinate does not fit POSY. -/
theorem witness_OffscreenGlyph :
    State.reset.cfg.Wf ∧ State.reset.seq = .idle ∧ State.reset.err = false ∧
    (∀ p ∈ ([⟨0x41, 392, 233⟩, ⟨0x41, 0, 2 ^ 40⟩] : List Placement),
      ({ State.reset with inputs := placementInputs board .whole .top 7 p } : State).inputs =
        placementInputs State.reset.cfg .whole .top 7 p ++ [] ∧
      ¬ (p.x + 8 ≤ State.reset.cfg.width .top ∧ p.y + 8 ≤ State.reset.cfg.height .top)) := by
  refine ⟨test_wf_board, rfl, rfl, fun p hp => ⟨rfl, ?_⟩⟩
  simp only [List.mem_cons, List.not_mem_nil, or_false] at hp
  rcases hp with rfl | rfl <;> decide

theorem witness_TwoNewlines : 400 ≤ board.width .top := by decide

/-- V54: five usable columns. -/
theorem witness_LongTextWraps :
    0 < board.spacingX ∧ (∀ b ∈ ([0x41, 0x42, 0x43, 0x44, 0x45] : List Byte), b ≠ 0x0A ∧ b ≠ 0x09) ∧
    (0x46 : Byte) ≠ 0x0A ∧ (0x46 : Byte) ≠ 0x09 ∧
    ([0x41, 0x42, 0x43, 0x44, 0x45] : List Byte).length = (board.width .top - 360) / board.spacingX := by decide

theorem witness_FormattedExample : 3 ≤ ({ board with formatMax := 3 } : Config).formatMax := by decide

/-- Two full frames of the tiny screen and a partial frame one byte short of a third. -/
theorem witness_SplashWaits :
    ([0x10, 0x20] : List Word).length = [List.replicate 192 (1 : Byte), List.replicate 192 2].length ∧
    (∀ f ∈ [List.replicate 192 (1 : Byte), List.replicate 192 2], f.length = tiny.frameBytes .top) ∧
    (List.replicate 191 (3 : Byte)).length < tiny.frameBytes .top := by
  have h : tiny.frameBytes .top = 192 := by decide
  refine ⟨rfl, fun f hf => ?_, ?_⟩
  · simp only [List.mem_cons, List.not_mem_nil, or_false] at hf
    rcases hf with rfl | rfl
    · rw [h, List.length_replicate]
    · rw [h, List.length_replicate]
  · rw [h, List.length_replicate]
    decide

end Sys2Proof.Tests
end

section
/-! The STATUS register (spec/10_state.md R38): its word bit by bit and field by field, and what an access to it does. -/

namespace Sys2Proof.Machine

/-! ### Bits and one-bit fields of a word -/

/-- A flag at bit `n` of a word sets that bit and no other. -/
theorem getLsbD_flagAt (b : Bool) {n : Nat} (hn : n < 32) (i : Nat) :
    (flagAt b n).getLsbD i = (decide (i = n) && b) := by
  rw [flagAt, BitVec.getLsbD_shiftLeft, BitVec.getLsbD_setWidth, BitVec.getLsbD_ofBool]
  by_cases h : i = n
  · simp [h, hn]
  · have hout : i < n ∨ i - n ≠ 0 := by omega
    rcases hout with hlt | hne
    · simp [h, hlt]
    · simp [h, hne]

/-- A field one bit wide, read from a bit that tells whether `p` holds. -/
theorem extractLsb'_one_of_getLsbD {w : Word} {n : Nat} {p : Prop} [Decidable p] (h : w.getLsbD n = decide p) :
    w.extractLsb' n 1 = if p then 1 else 0 := by
  have hbit : w.extractLsb' n 1 = BitVec.ofBool (w.getLsbD n) := by
    refine BitVec.eq_of_getLsbD_eq fun i hi => ?_
    obtain rfl : i = 0 := by omega
    simp
  rw [hbit, h]
  by_cases hp : p
  · simp [hp]
  · simp [hp]

/-! ### The STATUS word -/

/-- Bit `i` of STATUS: a flag below bit 3, a bit of ERRCODE from bit 8 on. -/
theorem getLsbD_statusWord (s : State) (i : Nat) :
    (statusWord s).getLsbD i =
      (decide (i = 0) && decide (Reached s) || decide (i = 1) && s.run || decide (i = 2) && s.err ||
        decide (8 ≤ i) && s.errCode.getLsbD (i - 8)) := by
  have herr : (s.errCode.setWidth 32 <<< 8).getLsbD i = (decide (8 ≤ i) && s.errCode.getLsbD (i - 8)) := by
    rw [BitVec.getLsbD_shiftLeft, BitVec.getLsbD_setWidth]
    by_cases hi : i < 32
    · have hshift : i - 8 < 32 := by omega
      have hlow : (!decide (i < 8)) = decide (8 ≤ i) := by simp [← decide_not]
      simp [hi, hshift, hlow]
    · have hge : s.errCode.getLsbD (i - 8) = false := BitVec.getLsbD_of_ge _ _ (by omega)
      simp [hge]
  simp only [statusWord, BitVec.getLsbD_or, herr, getLsbD_flagAt _ (show 0 < 32 by decide),
    getLsbD_flagAt _ (show 1 < 32 by decide), getLsbD_flagAt _ (show 2 < 32 by decide)]

theorem statusWord_reached (s : State) : (statusWord s).extractLsb' 0 1 = if Reached s then 1 else 0 :=
  extractLsb'_one_of_getLsbD (by rw [getLsbD_statusWord]; simp)

theorem statusWord_run (s : State) : (statusWord s).extractLsb' 1 1 = if s.run then 1 else 0 :=
  extractLsb'_one_of_getLsbD (by rw [getLsbD_statusWord]; simp)

theorem statusWord_err (s : State) : (statusWord s).extractLsb' 2 1 = if s.err then 1 else 0 :=
  extractLsb'_one_of_getLsbD (by rw [getLsbD_statusWord]; simp)

/-- Bits 7:3 lie above the flags and below ERRCODE. -/
theorem statusWord_low_zeros (s : State) : (statusWord s).extractLsb' 3 5 = 0 := by
  refine BitVec.eq_of_getLsbD_eq fun i hi => ?_
  have h8 : ¬ 8 ≤ 3 + i := by omega
  have h0 : 3 + i ≠ 0 ∧ 3 + i ≠ 1 ∧ 3 + i ≠ 2 := by omega
  simp [getLsbD_statusWord, h8, h0]

theorem statusWord_errCode (s : State) : (statusWord s).extractLsb' 8 4 = s.errCode := by
  refine BitVec.eq_of_getLsbD_eq fun i hi => ?_
  have h0 : 8 + i ≠ 0 ∧ 8 + i ≠ 1 ∧ 8 + i ≠ 2 := by omega
  simp [getLsbD_statusWord, hi, h0]

/-- Bits 31:12 lie above ERRCODE, which is four bits wide. -/
theorem statusWord_high_zeros (s : State) : (statusWord s).extractLsb' 12 20 = 0 := by
  refine BitVec.eq_of_getLsbD_eq fun i hi => ?_
  have h0 : 12 + i ≠ 0 ∧ 12 + i ≠ 1 ∧ 12 + i ≠ 2 := by omega
  have hge : s.errCode.getLsbD (12 + i - 8) = false := BitVec.getLsbD_of_ge _ _ (by omega)
  simp [getLsbD_statusWord, h0, hge]

/-! ### Accesses -/

/-- A read of any register changes nothing but the history (spec/20_memory.md R68). -/
theorem regAccess_read (g : Grain) (r : Reg) (a : Word) (n : Nat) (s : State) :
    regAccess g r (.read a n) s = .next (s.record (.regRead (regOffset r) (s.readReg r))) := rfl

/-- A write to any register but CMD stores and is recorded; only CMD runs a command (R37, R47). -/
theorem regAccess_write {r : Reg} (hr : r ≠ .cmd) (g : Grain) (a : Word) (n : Nat) (v : Word) (s : State) :
    regAccess g r (.write a n v) s = .next ((s.writeReg r v).record (.regWrite (regOffset r) v)) := by
  cases r with
  | cmd => exact absurd rfl hr
  | _ => rfl

/-- A write to the read-only STATUS stores nothing (R38). -/
theorem writeReg_status (s : State) (v : Word) : s.writeReg .status v = s := rfl

/-- Settles O38: the fields of the STATUS word, the offset of STATUS, and an access to it that leaves only its record. -/
theorem statusFields : Obligations.StatusFields := fun s =>
  ⟨statusWord_reached s, statusWord_run s, statusWord_err s, statusWord_low_zeros s, statusWord_errCode s,
    statusWord_high_zeros s, regAt_regOffset .status, fun g a v n =>
      ⟨regAccess_read g .status a n s, by
        rw [regAccess_write (by decide), writeReg_status]
        rfl⟩⟩

end Sys2Proof.Machine
end

section
/-! Decoding and the table of match and mask words (spec/30_encoding.md R94, R95, R112): when `decode` gives a command, and
what agreement under a row's mask says of the fields of a word. -/

namespace Sys2Proof

/-! ### When the decoder gives a command (R94) -/

theorem decodeN_eq_command_iff {w : Word} {i j : Instr} :
    decodeN w j = .command i ↔ sField w = 0 ∧ argField w = 0 ∧ j = i := by
  unfold decodeN
  split
  next h => exact ⟨nofun, fun ⟨hs, harg, _⟩ => absurd h (by simp [hs, harg])⟩
  next h =>
    obtain ⟨hs, harg⟩ := not_or.1 h
    simp [not_not.1 hs, not_not.1 harg]

theorem decodeP_eq_command_iff {w : Word} {i : Instr} {mk : Screen → BitVec 3 → BitVec 3 → Instr} :
    decodeP w mk = .command i ↔
      argHighField w = 0 ∧ mk (Screen.ofBit (sField w)) (rowField w) (colField w) = i := by
  unfold decodeP
  split
  next h => exact ⟨nofun, fun ⟨harg, _⟩ => absurd harg h⟩
  next h => simp [not_not.1 h]

theorem decodeG_eq_command_iff {w : Word} {i : Instr} {mk : Screen → Byte → Instr} :
    decodeG w mk = .command i ↔ mk (Screen.ofBit (sField w)) (argField w) = i := by
  simp [decodeG]

theorem decodeR_eq_command_iff {w : Word} {i : Instr} {mk : Byte → Instr} :
    decodeR w mk = .command i ↔ sField w = 0 ∧ mk (argField w) = i := by
  unfold decodeR
  split
  next h => exact ⟨nofun, fun ⟨hs, _⟩ => absurd hs h⟩
  next h => simp [not_not.1 h]

/-- An opcode is one of the eight defined ones or reserved (R93, R96). -/
theorem opcode_cases (opc : BitVec 4) :
    (8 ≤ opc.toNat ∧ ∀ k : BitVec 4, k.toNat < 8 → opc ≠ k) ∨ opc = 0 ∨ opc = 1 ∨ opc = 2 ∨ opc = 3 ∨
      opc = 4 ∨ opc = 5 ∨ opc = 6 ∨ opc = 7 := by
  revert opc
  decide

/-- The three steps of R94 as one condition: Z is 0, and the opcode is one of the eight and its format's check passes. -/
theorem decode_eq_command_iff {w : Word} {i : Instr} :
    decode w = .command i ↔ zField w = 0 ∧
      ((opcField w = 0 ∧ sField w = 0 ∧ argField w = 0 ∧ .nop = i) ∨
        (opcField w = 1 ∧ argHighField w = 0 ∧ .pxaddr (Screen.ofBit (sField w)) (rowField w) (colField w) = i) ∨
        (opcField w = 2 ∧ argHighField w = 0 ∧ .pxput (Screen.ofBit (sField w)) (rowField w) (colField w) = i) ∨
        (opcField w = 3 ∧ .glyph (Screen.ofBit (sField w)) (argField w) = i) ∨
        (opcField w = 4 ∧ sField w = 0 ∧ .fprate (argField w) = i) ∨
        (opcField w = 5 ∧ sField w = 0 ∧ argField w = 0 ∧ .fpstart = i) ∨
        (opcField w = 6 ∧ sField w = 0 ∧ argField w = 0 ∧ .fpwait = i) ∨
        (opcField w = 7 ∧ sField w = 0 ∧ argField w = 0 ∧ .fpstop = i)) := by
  simp only [← decodeN_eq_command_iff, ← decodeP_eq_command_iff, ← decodeG_eq_command_iff, ← decodeR_eq_command_iff]
  unfold decode
  by_cases hz : zField w = 0
  · obtain ⟨hres, hne⟩ | h | h | h | h | h | h | h | h := opcode_cases (opcField w)
    · simp [hres, hne]
    all_goals simp [h, hz]
  · simp only [if_pos hz, hz, false_and, iff_false]
    split
    · nofun
    · nofun

/-! #### The words of each row -/

theorem decode_eq_nop_iff {w : Word} :
    decode w = .command .nop ↔ zField w = 0 ∧ opcField w = 0 ∧ sField w = 0 ∧ argField w = 0 := by
  simp [decode_eq_command_iff]

theorem decode_eq_pxaddr_iff {w : Word} :
    (∃ sc row col, decode w = .command (.pxaddr sc row col)) ↔
      zField w = 0 ∧ opcField w = 1 ∧ argHighField w = 0 := by
  simp [decode_eq_command_iff]

theorem decode_eq_pxput_iff {w : Word} :
    (∃ sc row col, decode w = .command (.pxput sc row col)) ↔
      zField w = 0 ∧ opcField w = 2 ∧ argHighField w = 0 := by
  simp [decode_eq_command_iff]

theorem decode_eq_glyph_iff {w : Word} :
    (∃ sc char, decode w = .command (.glyph sc char)) ↔ zField w = 0 ∧ opcField w = 3 := by
  simp [decode_eq_command_iff]

theorem decode_eq_fprate_iff {w : Word} :
    (∃ rate, decode w = .command (.fprate rate)) ↔ zField w = 0 ∧ opcField w = 4 ∧ sField w = 0 := by
  simp [decode_eq_command_iff]

theorem decode_eq_fpstart_iff {w : Word} :
    decode w = .command .fpstart ↔ zField w = 0 ∧ opcField w = 5 ∧ sField w = 0 ∧ argField w = 0 := by
  simp [decode_eq_command_iff]

theorem decode_eq_fpwait_iff {w : Word} :
    decode w = .command .fpwait ↔ zField w = 0 ∧ opcField w = 6 ∧ sField w = 0 ∧ argField w = 0 := by
  simp [decode_eq_command_iff]

theorem decode_eq_fpstop_iff {w : Word} :
    decode w = .command .fpstop ↔ zField w = 0 ∧ opcField w = 7 ∧ sField w = 0 ∧ argField w = 0 := by
  simp [decode_eq_command_iff]

/-! ### Agreement under a mask, field by field (R91, R92) -/

/-- The four fields cover the word. -/
theorem word_eq_iff_fields {v w : Word} :
    v = w ↔ opcField v = opcField w ∧ sField v = sField w ∧ zField v = zField w ∧ argField v = argField w := by
  refine ⟨fun h => by simp [h], fun ⟨hopc, hs, hz, harg⟩ => BitVec.eq_of_toNat_eq ?_⟩
  simp only [opcField, sField, zField, argField, ← BitVec.toNat_inj, BitVec.extractLsb'_toNat,
    Nat.shiftRight_eq_div_pow] at hopc hs hz harg
  omega

/-- The reserved bits of format P are those of ARG that its mask keeps. -/
theorem argField_and_eq_zero_iff {w : Word} : argField w &&& 0xC0 = 0 ↔ argHighField w = 0 := by
  have hhigh : argHighField w = (argField w).extractLsb' 6 2 := by
    simp [argHighField, argField, BitVec.extractLsb'_extractLsb'_of_le]
  have hbyte : ∀ b : Byte, b &&& 0xC0 = 0 ↔ b.extractLsb' 6 2 = 0 := by decide
  rw [hhigh, hbyte]

section
/- A match word of the table has an opcode and zeros in every other field. -/
variable {w v : Word} (hv : sField v = 0 ∧ zField v = 0 ∧ argField v = 0)
include hv

/-- Every mask of the table keeps the whole of OPC and Z; the formats differ in what they keep of S and ARG. -/
theorem and_eq_match_iff {m : Word} (hopc : opcField m = BitVec.allOnes 4) (hz : zField m = BitVec.allOnes 19) :
    w &&& m = v ↔
      zField w = 0 ∧ opcField w = opcField v ∧ sField w &&& sField m = 0 ∧ argField w &&& argField m = 0 := by
  obtain ⟨hvs, hvz, hvarg⟩ := hv
  have hwopc : opcField (w &&& m) = opcField w &&& opcField m := BitVec.extractLsb'_and
  have hws : sField (w &&& m) = sField w &&& sField m := BitVec.extractLsb'_and
  have hwz : zField (w &&& m) = zField w &&& zField m := BitVec.extractLsb'_and
  have hwarg : argField (w &&& m) = argField w &&& argField m := BitVec.extractLsb'_and
  rw [word_eq_iff_fields, hwopc, hws, hwz, hwarg, hopc, hz, hvs, hvz, hvarg, BitVec.and_allOnes, BitVec.and_allOnes]
  tauto

/-- Format N keeps all of S and ARG. -/
theorem and_maskN_eq_iff :
    w &&& 0xFFFFFFFF = v ↔ zField w = 0 ∧ opcField w = opcField v ∧ sField w = 0 ∧ argField w = 0 := by
  rw [and_eq_match_iff hv (by decide) (by decide), show sField 0xFFFFFFFF = BitVec.allOnes 1 by decide,
    show argField 0xFFFFFFFF = BitVec.allOnes 8 by decide, BitVec.and_allOnes, BitVec.and_allOnes]

/-- Format P keeps only ARG[7:6]. -/
theorem and_maskP_eq_iff :
    w &&& 0xF7FFFFC0 = v ↔ zField w = 0 ∧ opcField w = opcField v ∧ argHighField w = 0 := by
  rw [and_eq_match_iff hv (by decide) (by decide), show sField 0xF7FFFFC0 = 0 by decide,
    show argField 0xF7FFFFC0 = 0xC0 by decide, argField_and_eq_zero_iff]
  simp

/-- Format G keeps nothing of S and ARG. -/
theorem and_maskG_eq_iff : w &&& 0xF7FFFF00 = v ↔ zField w = 0 ∧ opcField w = opcField v := by
  rw [and_eq_match_iff hv (by decide) (by decide), show sField 0xF7FFFF00 = 0 by decide,
    show argField 0xF7FFFF00 = 0 by decide]
  simp

/-- Format R keeps only S. -/
theorem and_maskR_eq_iff : w &&& 0xFFFFFF00 = v ↔ zField w = 0 ∧ opcField w = opcField v ∧ sField w = 0 := by
  rw [and_eq_match_iff hv (by decide) (by decide), show sField 0xFFFFFF00 = BitVec.allOnes 1 by decide,
    show argField 0xFFFFFF00 = 0 by decide, BitVec.and_allOnes]
  simp

end

/-! ### The statements -/

/-- Settles O3: for each row, `decode` and the mask ask the same of the word's fields. -/
theorem wordSpellsRowByMatchAndMask : Obligations.WordSpellsRowByMatchAndMask := fun _ =>
  ⟨decode_eq_nop_iff.trans (and_maskN_eq_iff (v := 0x00000000) (by decide)).symm,
    decode_eq_pxaddr_iff.trans (and_maskP_eq_iff (v := 0x10000000) (by decide)).symm,
    decode_eq_pxput_iff.trans (and_maskP_eq_iff (v := 0x20000000) (by decide)).symm,
    decode_eq_glyph_iff.trans (and_maskG_eq_iff (v := 0x30000000) (by decide)).symm,
    decode_eq_fprate_iff.trans (and_maskR_eq_iff (v := 0x40000000) (by decide)).symm,
    decode_eq_fpstart_iff.trans (and_maskN_eq_iff (v := 0x50000000) (by decide)).symm,
    decode_eq_fpwait_iff.trans (and_maskN_eq_iff (v := 0x60000000) (by decide)).symm,
    decode_eq_fpstop_iff.trans (and_maskN_eq_iff (v := 0x70000000) (by decide)).symm⟩

/-- Settles O4: sixteen literal words, each decoded by evaluation. -/
theorem workedEncodingsDecode : Obligations.WorkedEncodingsDecode := by
  unfold Obligations.WorkedEncodingsDecode
  decide

end Sys2Proof
end

section
/-! The pixel addresser's geometry (spec/40_pixel_writer.md R121 to R124): a pixel's offset is three times its number in
framebuffer order (spec/20_memory.md R60), and numbers stand for the pixels of the screen one to one. -/

namespace Sys2Proof.Machine

/-! ### The number of a pixel in framebuffer order -/

/-- The number of the pixel at logical (x, y): column by column, each from its bottom pixel up (R60). -/
def pixelNumber (h x y : Nat) : Nat := x * h + (h - 1 - y)

theorem pixelNumber_div {h y : Nat} (hy : y < h) (x : Nat) : pixelNumber h x y / h = x := by
  rw [pixelNumber, Nat.add_comm, Nat.add_mul_div_right _ _ (by omega), Nat.div_eq_of_lt (by omega), Nat.zero_add]

theorem pixelNumber_mod {h y : Nat} (hy : y < h) (x : Nat) : pixelNumber h x y % h = h - 1 - y := by
  rw [pixelNumber, Nat.mul_add_mod', Nat.mod_eq_of_lt (by omega)]

theorem pixelNumber_lt {w h x y : Nat} (hx : x < w) (hy : y < h) : pixelNumber h x y < w * h := by
  rw [← Nat.div_lt_iff_lt_mul (by omega), pixelNumber_div hy]
  exact hx

theorem pixelNumber_inj {h x y x' y' : Nat} (hy : y < h) (hy' : y' < h) :
    pixelNumber h x y = pixelNumber h x' y' ↔ x = x' ∧ y = y' := by
  refine ⟨fun heq => ⟨?_, ?_⟩, fun ⟨hx, hy⟩ => by rw [hx, hy]⟩
  · rw [← pixelNumber_div hy x, heq, pixelNumber_div hy']
  · have hmod : h - 1 - y = h - 1 - y' := by rw [← pixelNumber_mod hy x, heq, pixelNumber_mod hy']
    omega

/-- Column `n / h`, counted up from the column's bottom `n % h` pixels, holds the pixel of number `n`. -/
theorem pixelNumber_div_mod {h : Nat} (hh : 0 < h) (n : Nat) : pixelNumber h (n / h) (h - 1 - n % h) = n := by
  have hmod : n % h < h := Nat.mod_lt n hh
  rw [pixelNumber, show h - 1 - (h - 1 - n % h) = n % h by omega, Nat.div_add_mod']

theorem pixelNumber_right (h x y : Nat) : pixelNumber h (x + 1) y = pixelNumber h x y + h := by
  rw [pixelNumber, pixelNumber, Nat.succ_mul, Nat.add_right_comm]

theorem pixelNumber_down {h y : Nat} (hy : y + 1 < h) (x : Nat) :
    pixelNumber h x (y + 1) + 1 = pixelNumber h x y := by
  rw [pixelNumber, pixelNumber]
  omega

/-! ### The offset -/

/-- R122 (a): the document's formula depends only on the sums of the coordinates. -/
theorem pixelOffset_eq (h posX posY row col : Nat) :
    pixelOffset h posX posY row col = 3 * pixelNumber h (posX + col) (posY + row) := by
  rw [pixelOffset, pixelNumber, show h - row - posY - 1 = h - 1 - (posY + row) by omega]
  ring

theorem pixelOffset_div_three (h x y : Nat) : pixelOffset h x y 0 0 / 3 = pixelNumber h x y := by
  rw [pixelOffset_eq, Nat.mul_div_cancel_left _ (by decide), Nat.add_zero, Nat.add_zero]

/-- R122 (c), along a row. -/
theorem pixelOffset_right (h posX posY row col : Nat) :
    pixelOffset h (posX + 1) posY row col = pixelOffset h posX posY row col + 3 * h ∧
      pixelOffset h posX posY row (col + 1) = pixelOffset h posX posY row col + 3 * h := by
  simp only [pixelOffset_eq, Nat.add_right_comm posX 1, ← Nat.add_assoc, pixelNumber_right, Nat.mul_add, and_self]

/-- R122 (c), down a column. -/
theorem pixelOffset_down {h posY row : Nat} (hy : posY + row + 1 < h) (posX col : Nat) :
    pixelOffset h posX (posY + 1) row col + 3 = pixelOffset h posX posY row col ∧
      pixelOffset h posX posY (row + 1) col + 3 = pixelOffset h posX posY row col := by
  simp only [pixelOffset_eq, Nat.add_right_comm posY 1, ← Nat.add_assoc, ← pixelNumber_down hy, Nat.mul_add, Nat.mul_one,
    and_self]

/-- R122 (d), onto: every number below `w * h` is the number of exactly one pixel of the screen. -/
theorem exists_unique_pixel {w h n : Nat} (hn : n < w * h) :
    ∃ x y, x < w ∧ y < h ∧ pixelOffset h x y 0 0 / 3 = n ∧
      ∀ x' y', x' < w → y' < h → pixelOffset h x' y' 0 0 / 3 = n → x' = x ∧ y' = y := by
  have hh : 0 < h := Nat.pos_of_lt_mul_left hn
  have hy : h - 1 - n % h < h := by omega
  have hnum : pixelNumber h (n / h) (h - 1 - n % h) = n := pixelNumber_div_mod hh n
  refine ⟨n / h, h - 1 - n % h, Nat.div_lt_of_lt_mul (Nat.mul_comm w h ▸ hn), hy,
    (pixelOffset_div_three ..).trans hnum, fun x' y' _ hy' heq => ?_⟩
  rw [pixelOffset_div_three] at heq
  exact (pixelNumber_inj hy' hy).1 (heq.trans hnum.symm)

/-- R122 (e): the bottom-left, top-right and top-left pixels. -/
theorem pixelOffset_corners {w h : Nat} (hw : 0 < w) (hh : 0 < h) :
    pixelOffset h 0 (h - 1) 0 0 = 0 ∧ pixelOffset h (w - 1) 0 0 0 = 3 * w * h - 3 ∧
      pixelOffset h 0 0 0 0 = 3 * (h - 1) := by
  refine ⟨by simp [pixelOffset_eq, pixelNumber], ?_, by simp [pixelOffset_eq, pixelNumber]⟩
  obtain ⟨v, rfl⟩ : ∃ v, w = v + 1 := ⟨w - 1, by omega⟩
  have hall : 3 * (v + 1) * h = 3 * (v * h) + 3 * h := by ring
  rw [pixelOffset_eq, pixelNumber, hall, Nat.add_sub_cancel, Nat.add_zero, Nat.add_zero]
  omega

/-- Settles O12: an offset is three times a pixel's number, so each consequence is one of the numbering. -/
theorem pixelAddressGeometry : Obligations.PixelAddressGeometry :=
  ⟨fun h posX posY row col _ => pixelOffset_eq h posX posY row col,
    fun h posX posY row col => by rw [pixelOffset_eq, Nat.mul_mod_right],
    fun h posX posY row col _ => pixelOffset_right h posX posY row col,
    fun _ posX _ _ col hy => pixelOffset_down hy posX col,
    fun _ h x y hx hy => pixelOffset_div_three h x y ▸ pixelNumber_lt hx hy,
    fun _ _ _ hn => exists_unique_pixel hn,
    fun _ _ hw hh => pixelOffset_corners hw hh⟩

/-! ### The bounds check of a well-formed configuration (R123, R124; spec/00_scope.md R7) -/

theorem screenHoldsGlyph_of_wf {c : Config} (hc : c.Wf) (sc : Screen) : c.ScreenHoldsGlyph sc := by
  obtain ⟨hbottom, htop, -⟩ := hc
  cases sc with
  | bottom => exact hbottom
  | top => exact htop

theorem frameFits_of_wf {c : Config} (hc : c.Wf) (sc : Screen) : c.FrameFits sc := by
  obtain ⟨-, -, hbottom, htop, -⟩ := hc
  cases sc with
  | bottom => exact hbottom
  | top => exact htop

/-- The pixel's check says that its logical coordinates are on the screen: R7 keeps the subtractions from going below 0. -/
theorem inBoundsPixel_iff {s : State} (hc : s.cfg.Wf) (sc : Screen) {row col : Nat} (hrow : row < 8) (hcol : col < 8) :
    InBoundsPixel s sc row col ↔
      s.posX.toNat + col < s.cfg.width sc ∧ s.posY.toNat + row < s.cfg.height sc := by
  obtain ⟨hw, hh⟩ := screenHoldsGlyph_of_wf hc sc
  constructor
  · rintro ⟨hx, hy⟩
    omega
  · rintro ⟨hx, hy⟩
    constructor
    · omega
    · omega

theorem cellOffset_eq (s : State) (sc : Screen) (row col : Nat) :
    cellOffset s sc row col =
      3 * pixelNumber (s.cfg.height sc) (s.posX.toNat + col) (s.posY.toNat + row) :=
  pixelOffset_eq ..

/-- The pixel's number is below `W * H`, so its three bytes end inside the framebuffer. -/
theorem cellOffset_add_three_le {s : State} {sc : Screen} {row col : Nat} (hc : s.cfg.Wf) (hrow : row < 8) (hcol : col < 8)
    (hb : InBoundsPixel s sc row col) : cellOffset s sc row col + 3 ≤ s.cfg.frameBytes sc := by
  obtain ⟨hx, hy⟩ := (inBoundsPixel_iff hc sc hrow hcol).1 hb
  have hlt := pixelNumber_lt hx hy
  rw [cellOffset_eq, Config.frameBytes, Nat.mul_assoc]
  omega

/-- Settles O13: the pixel's three bytes end inside the framebuffer, which R7 keeps within 2^32 bytes. -/
theorem inBoundsPixelLiesInFramebuffer : Obligations.InBoundsPixelLiesInFramebuffer := by
  intro s sc row col hc hrow hcol hb
  have hend := cellOffset_add_three_le hc hrow hcol hb
  have hfit := frameFits_of_wf hc sc
  rw [Config.FrameFits] at hfit
  rw [Config.frameBytes] at hend hfit
  omega

end Sys2Proof.Machine
end

section
/-! PXPUT as one overwrite of three bytes (spec/40_pixel_writer.md R127, R128, R130): the bytes of a colour, the addresses of
a pixel's bytes, byte writes done twice, and the command's outcome where nothing refuses it. -/

namespace Sys2Proof.Machine

/-! ### Byte writes done twice -/

theorem Memory.read_eq_none_of_ge {m : Memory} (hm : m.wf) {a : Nat} (ha : 2 ^ 32 ≤ a) : m.read a = none := by
  obtain ⟨-, hbus⟩ := hm
  exact Option.eq_none_iff_forall_ne_some.2 fun b hb => Nat.not_lt.2 ha (hbus (a, b) (Memory.mem_of_read hb))

/-- Memories in canonical form that read alike at every bus address are equal. -/
theorem Memory.ext_of_wf {m n : Memory} (hm : m.wf) (hn : n.wf) (h : ∀ a : Word, m.read a.toNat = n.read a.toNat) :
    m = n := by
  refine Memory.ext_of_read hm.1 hn.1 fun a => ?_
  by_cases ha : a < 2 ^ 32
  · have hword := h (BitVec.ofNat 32 a)
    rwa [BitVec.toNat_ofNat, Nat.mod_eq_of_lt ha] at hword
  · rw [Memory.read_eq_none_of_ge hm (Nat.le_of_not_lt ha), Memory.read_eq_none_of_ge hn (Nat.le_of_not_lt ha)]

/-- What a byte reads as after byte writes to its address does not depend on the memory before them. -/
theorem State.readByte_writeBytes_of_written {s t : State} (hcfg : s.cfg = t.cfg) {ws : List ByteWrite} {a : Word}
    (ha : ∃ w ∈ ws, a = w.1) (hm : s.cfg.hasMemory a.toNat = true) :
    (s.writeBytes ws).readByte a = (t.writeBytes ws).readByte a := by
  induction ws generalizing s t with
  | nil => simp at ha
  | cons v ws ih =>
    rw [State.writeBytes_cons, State.writeBytes_cons]
    by_cases hlater : ∃ w ∈ ws, a = w.1
    · exact ih (by simpa using hcfg) hlater (by simpa using hm)
    · have hlast : ∀ w ∈ ws, a ≠ w.1 := fun w hw heq => hlater ⟨w, hw, heq⟩
      obtain rfl : a = v.1 := by simpa [hlater] using ha
      rw [State.readByte_writeBytes_of_not_mem _ _ _ (.inl hlast), State.readByte_writeBytes_of_not_mem _ _ _ (.inl hlast),
        State.readByte_writeByte, State.readByte_writeByte, if_pos ⟨rfl, hm⟩, if_pos ⟨rfl, hcfg ▸ hm⟩]

/-- What memory holds after byte writes depends on no register. -/
theorem State.writeBytes_memory_congr {s t : State} (hcfg : s.cfg = t.cfg) (hmem : s.memory = t.memory)
    (ws : List ByteWrite) : (s.writeBytes ws).memory = (t.writeBytes ws).memory := by
  rw [State.writeBytes_memory, State.writeBytes_memory, hcfg, hmem]

/-- The same byte writes a second time leave memory as it is. -/
theorem State.writeBytes_twice_memory {s : State} (h : s.memory.wf) (ws : List ByteWrite) :
    ((s.writeBytes ws).writeBytes ws).memory = (s.writeBytes ws).memory := by
  refine Memory.ext_of_wf (State.writeBytes_wf (State.writeBytes_wf h ws) ws) (State.writeBytes_wf h ws) fun a => ?_
  change ((s.writeBytes ws).writeBytes ws).readByte a = (s.writeBytes ws).readByte a
  by_cases hw : (∃ w ∈ ws, a = w.1) ∧ s.cfg.hasMemory a.toNat = true
  · obtain ⟨hmem, hm⟩ := hw
    exact State.readByte_writeBytes_of_written (by simp) hmem (by simpa using hm)
  · refine State.readByte_writeBytes_of_not_mem _ _ _ ?_
    rcases not_and_or.1 hw with hnot | hnot
    · exact .inl fun w hws heq => hnot ⟨w, hws, heq⟩
    · exact .inr (by simpa using hnot)

/-! ### The bytes of a pixel -/

theorem setWidth_shiftRight_and_byte (c : Word) (n : Nat) : ((c >>> n) &&& 0xFF).setWidth 8 = c.extractLsb' n 8 := by
  refine BitVec.eq_of_toNat_eq ?_
  have hand : ∀ v : Nat, v &&& 255 = v % 256 := fun v => Nat.and_two_pow_sub_one_eq_mod v 8
  simp [hand]

theorem colorBytes_eq (c : Word) : colorBytes c = (c.extractLsb' 16 8, c.extractLsb' 8 8, c.extractLsb' 0 8) := by
  simp only [colorBytes, ← setWidth_shiftRight_and_byte, BitVec.ushiftRight_zero]

theorem pixelWrites_eq (s : State) (sc : Screen) (p : Nat) :
    pixelWrites s sc p =
      [(byteAddr (s.fbdraw sc) p 0, s.color.extractLsb' 16 8), (byteAddr (s.fbdraw sc) p 1, s.color.extractLsb' 8 8),
        (byteAddr (s.fbdraw sc) p 2, s.color.extractLsb' 0 8)] := by
  rw [pixelWrites, colorBytes_eq]

/-- A pixel's byte writes go to its three addresses. -/
theorem addr_of_mem_pixelWrites {s : State} {sc : Screen} {p : Nat} {w : ByteWrite} (hw : w ∈ pixelWrites s sc p) :
    ∃ k, k < 3 ∧ w.1 = byteAddr (s.fbdraw sc) p k := by
  simp only [pixelWrites_eq, List.mem_cons, List.not_mem_nil, or_false] at hw
  rcases hw with rfl | rfl | rfl
  · exact ⟨0, by decide, rfl⟩
  · exact ⟨1, by decide, rfl⟩
  · exact ⟨2, by decide, rfl⟩

/-- From one base, addresses are as distinct as the offsets, which fit 32 bits. -/
theorem byteAddr_inj {fb : Word} {p k q j : Nat} (hp : p + k < 2 ^ 32) (hq : q + j < 2 ^ 32) :
    byteAddr fb p k = byteAddr fb q j ↔ p + k = q + j := by
  rw [byteAddr, byteAddr, BitVec.add_right_inj, ← BitVec.toNat_inj, BitVec.toNat_ofNat, BitVec.toNat_ofNat,
    Nat.mod_eq_of_lt hp, Nat.mod_eq_of_lt hq]

/-- An offset inside a framebuffer that is placed below 2^32 does not wrap (spec/20_memory.md R70). -/
theorem byteAddr_toNat {s : State} {sc : Screen} (hs : s.Placed sc) {p k : Nat} (h : p + k < s.cfg.frameBytes sc) :
    (byteAddr (s.fbdraw sc) p k).toNat = (s.fbdraw sc).toNat + p + k := by
  rw [State.Placed] at hs
  rw [byteAddr, BitVec.toNat_add, BitVec.toNat_ofNat]
  omega

theorem byteAddr_inFrame {s : State} {sc : Screen} (hs : s.Placed sc) {p k : Nat} (h : p + k < s.cfg.frameBytes sc) :
    s.InFrame sc (byteAddr (s.fbdraw sc) p k) := by
  rw [State.InFrame, byteAddr_toNat hs h]
  omega

theorem pixelWrites_pairwise_ne {s : State} {sc : Screen} {p : Nat} (hp : p + 3 ≤ 2 ^ 32) :
    (pixelWrites s sc p).Pairwise fun v u => v.1 ≠ u.1 := by
  have hne : ∀ {k j : Nat}, k < 3 → j < 3 → k ≠ j → byteAddr (s.fbdraw sc) p k ≠ byteAddr (s.fbdraw sc) p j :=
    fun hk hj hkj heq => hkj (by rw [byteAddr_inj (by omega) (by omega)] at heq; omega)
  simp [pixelWrites_eq, hne]

/-! ### One pixel drawn -/

/-- Drawing a pixel changes OFFSET, memory and the history. -/
theorem drawPixel_eq (sc : Screen) (s : State) (p : Nat) :
    s.drawPixel sc p =
      { s with
        offset := BitVec.ofNat 32 p
        memory := (s.drawPixel sc p).memory
        history := (s.drawPixel sc p).history } := rfl

@[simp] theorem State.fbdraw_drawPixel (s : State) (sc sc' : Screen) (p : Nat) :
    (s.drawPixel sc p).fbdraw sc' = s.fbdraw sc' := by
  cases sc' with
  | bottom => exact State.drawPixel_fbdraw0 sc s p
  | top => exact State.drawPixel_fbdraw1 sc s p

theorem State.readByte_drawPixel (s : State) (sc : Screen) (p : Nat) (a : Word) :
    (s.drawPixel sc p).readByte a = (s.writeBytes (pixelWrites s sc p)).readByte a :=
  State.readByte_congr (drawPixel_memory sc s p) a

/-- The pixel's three bytes read as the colour's. -/
theorem readByte_drawPixel_of_written {s : State} {sc : Screen} {p : Nat} (hp : p + 3 ≤ 2 ^ 32)
    (hm : ∀ k, k < 3 → s.cfg.hasMemory (byteAddr (s.fbdraw sc) p k).toNat = true) :
    (s.drawPixel sc p).readByte (byteAddr (s.fbdraw sc) p 0) = some (s.color.extractLsb' 16 8) ∧
      (s.drawPixel sc p).readByte (byteAddr (s.fbdraw sc) p 1) = some (s.color.extractLsb' 8 8) ∧
      (s.drawPixel sc p).readByte (byteAddr (s.fbdraw sc) p 2) = some (s.color.extractLsb' 0 8) := by
  have hwritten : ∀ w ∈ pixelWrites s sc p, (s.drawPixel sc p).readByte w.1 = some w.2 := fun w hw => by
    obtain ⟨k, hk, haddr⟩ := addr_of_mem_pixelWrites hw
    rw [State.readByte_drawPixel]
    exact State.readByte_writeBytes_of_mem s _ w hw (haddr ▸ hm k hk) (pixelWrites_pairwise_ne hp)
  simpa [pixelWrites_eq] using hwritten

theorem readByte_drawPixel_of_ne {s : State} {sc : Screen} {p : Nat} {a : Word}
    (ha : ∀ k, k < 3 → a ≠ byteAddr (s.fbdraw sc) p k) : (s.drawPixel sc p).readByte a = s.readByte a := by
  rw [State.readByte_drawPixel]
  refine State.readByte_writeBytes_of_not_mem s _ a (.inl fun w hw heq => ?_)
  obtain ⟨k, hk, haddr⟩ := addr_of_mem_pixelWrites hw
  exact ha k hk (heq.trans haddr)

/-- The same pixel drawn a second time adds only its records. -/
theorem drawPixel_twice {s : State} (h : s.memory.wf) (sc : Screen) (p : Nat) :
    { (s.drawPixel sc p).drawPixel sc p with history := (s.drawPixel sc p).history } = s.drawPixel sc p := by
  have hsame : pixelWrites (s.drawPixel sc p) sc p = pixelWrites s sc p :=
    pixelWrites_congr (by simp) (by simp) (by simp) sc p
  have hmem : ((s.drawPixel sc p).drawPixel sc p).memory = (s.drawPixel sc p).memory := by
    rw [drawPixel_memory, hsame, State.writeBytes_memory_congr (t := s.writeBytes (pixelWrites s sc p)) (by simp)
      (drawPixel_memory sc s p), State.writeBytes_twice_memory h, drawPixel_memory]
  rw [drawPixel_eq sc (s.drawPixel sc p) p, hmem]
  rfl

/-! ### The command -/

theorem hitsWindow_eq_false_iff {c : Config} {ws : List ByteWrite} :
    hitsWindow c ws = false ↔ ∀ w ∈ ws, ¬ InWindow c w.1 := by
  simp [hitsWindow]

/-- R127: in bounds and clear of the block's own window, PXPUT draws its pixel. -/
theorem exec_pxput_of_inBounds {s : State} {sc : Screen} {row col : BitVec 3}
    (hb : InBoundsPixel s sc row.toNat col.toNat)
    (hw : ∀ k, k < 3 → ¬ InWindow s.cfg (byteAddr (s.fbdraw sc) (cellOffset s sc row.toNat col.toNat) k)) :
    exec (.pxput sc row col) s = .next (s.drawPixel sc (cellOffset s sc row.toNat col.toNat)) := by
  have hclear : hitsWindow s.cfg (pixelWrites s sc (cellOffset s sc row.toNat col.toNat)) = false :=
    hitsWindow_eq_false_iff.2 fun w hmem => by
      obtain ⟨k, hk, haddr⟩ := addr_of_mem_pixelWrites hmem
      exact haddr ▸ hw k hk
  simp [exec, execPxput, hb, hclear]

/-- After a PXPUT of an in-bounds pixel clear of the window, the same PXPUT draws the same pixel again. -/
theorem exec_pxput_after_drawPixel {s : State} {sc : Screen} {row col : BitVec 3} (q : Nat)
    (hb : InBoundsPixel s sc row.toNat col.toNat)
    (hw : ∀ k, k < 3 → ¬ InWindow s.cfg (byteAddr (s.fbdraw sc) (cellOffset s sc row.toNat col.toNat) k)) :
    exec (.pxput sc row col) (s.drawPixel sc q) =
      .next ((s.drawPixel sc q).drawPixel sc (cellOffset s sc row.toNat col.toNat)) := by
  have hcell : cellOffset (s.drawPixel sc q) sc row.toNat col.toNat = cellOffset s sc row.toNat col.toNat := by
    simp [cellOffset]
  rw [exec_pxput_of_inBounds (by simpa [InBoundsPixel] using hb) (by simpa [hcell] using hw), hcell]

/-- Pixels at different (x, y) of one screen have no byte address in common: their numbers differ, and an offset's
remainder by 3 is the byte's place inside its pixel. -/
theorem byteAddr_ne_of_pixel_ne {s t : State} {sc : Screen} {row col row' col' : Nat} (hc : s.cfg.Wf) (hcfg : t.cfg = s.cfg)
    (hrow : row < 8) (hcol : col < 8) (hrow' : row' < 8) (hcol' : col' < 8)
    (hb : InBoundsPixel s sc row col) (hb' : InBoundsPixel t sc row' col')
    (hne : (t.posX.toNat + col', t.posY.toNat + row') ≠ (s.posX.toNat + col, s.posY.toNat + row))
    (fb : Word) {j k : Nat} (hj : j < 3) (hk : k < 3) :
    byteAddr fb (cellOffset t sc row' col') j ≠ byteAddr fb (cellOffset s sc row col) k := by
  have hc' : t.cfg.Wf := hcfg ▸ hc
  obtain ⟨-, hy⟩ := (inBoundsPixel_iff hc sc hrow hcol).1 hb
  obtain ⟨-, hy'⟩ := (inBoundsPixel_iff hc' sc hrow' hcol').1 hb'
  have hend := cellOffset_add_three_le hc hrow hcol hb
  have hend' := cellOffset_add_three_le hc' hrow' hcol' hb'
  have hfit : s.cfg.frameBytes sc ≤ 2 ^ 32 := frameFits_of_wf hc sc
  rw [hcfg] at hend' hy'
  intro heq
  rw [byteAddr_inj (by omega) (by omega), cellOffset_eq, cellOffset_eq, hcfg] at heq
  have hnumber : pixelNumber (s.cfg.height sc) (t.posX.toNat + col') (t.posY.toNat + row') =
      pixelNumber (s.cfg.height sc) (s.posX.toNat + col) (s.posY.toNat + row) := by omega
  obtain ⟨hsameX, hsameY⟩ := (pixelNumber_inj hy' hy).1 hnumber
  exact hne (Prod.ext hsameX hsameY)

/-- Settles O15: PXPUT draws one pixel, the second time over itself; the pixel's bytes lie in the usable framebuffer. -/
theorem pxputIsOnePureOverwrite : Obligations.PxputIsOnePureOverwrite := by
  intro s sc row col hc hmem hplaced hb husable p
  have hend : p + 3 ≤ s.cfg.frameBytes sc := cellOffset_add_three_le hc row.isLt col.isLt hb
  have hfit : s.cfg.frameBytes sc ≤ 2 ^ 32 := frameFits_of_wf hc sc
  have hclear : ∀ k, k < 3 → ¬ InWindow s.cfg (byteAddr (s.fbdraw sc) p k) := fun k hk =>
    (husable _ (byteAddr_inFrame hplaced (by omega))).1
  have hbacked : ∀ k, k < 3 → s.cfg.hasMemory (byteAddr (s.fbdraw sc) p k).toNat = true := fun k hk =>
    (husable _ (byteAddr_inFrame hplaced (by omega))).2
  obtain ⟨hred, hgreen, hblue⟩ := readByte_drawPixel_of_written (by omega) hbacked
  refine ⟨s.drawPixel sc p, (s.drawPixel sc p).drawPixel sc p, exec_pxput_of_inBounds hb hclear,
    exec_pxput_after_drawPixel p hb hclear, ?_, hred, hgreen, hblue, fun a ha => ?_, drawPixel_twice hmem sc p,
    fun x y row' col' hb' hne j k hj hk => ?_⟩
  · rw [State.drawPixel_offset, BitVec.toNat_ofNat, Nat.mod_eq_of_lt (by omega)]
  · refine readByte_drawPixel_of_ne fun k hk heq => ?_
    rw [heq, byteAddr_toNat hplaced (by omega)] at ha
    omega
  · exact byteAddr_ne_of_pixel_ne (t := { s with posX := x, posY := y }) hc rfl row.isLt col.isLt row'.isLt
      col'.isLt hb hb' hne (s.fbdraw sc) hj hk

end Sys2Proof.Machine
end

section
/-! The glyph bit unpacker's view of a glyph (spec/41_glyph_unpacker.md R140, R141, R143, R146): the bits of `glyphMask` in scan
order, the set bits counted, and the command's outcome by its extent check. -/

namespace Sys2Proof.Machine

/-! ### The 64-bit view, row by row (R141) -/

theorem glyphBit_eq (c : Config) (char : Byte) (r k : Nat) :
    glyphBit c char r k = (fontRead c char r).getLsbD (7 - k) := by
  simp [glyphBit]

/-- The rows 0 to `n` of a glyph in one word, row 0 in the top byte. -/
def glyphRows (c : Config) (char : Byte) : (n : Nat) → BitVec (8 * (n + 1))
  | 0 => fontRead c char 0
  | n + 1 => glyphRows c char n ++ fontRead c char (n + 1)

theorem glyphMask_eq_glyphRows (c : Config) (char : Byte) : glyphMask c char = glyphRows c char 7 := rfl

/-- Read from the top down, the rows give the glyph bits in scan order: the last row is the low byte, and above it stand the
rows before. -/
theorem getLsbD_glyphRows (c : Config) (char : Byte) {n r k : Nat} (hr : r ≤ n) (hk : k < 8) :
    (glyphRows c char n).getLsbD (8 * n + 7 - (8 * r + k)) = glyphBit c char r k := by
  rw [glyphBit_eq]
  induction n with
  | zero =>
    obtain rfl : r = 0 := by omega
    rw [glyphRows, show 8 * 0 + 7 - (8 * 0 + k) = 7 - k by omega]
  | succ n ih =>
    rw [glyphRows, BitVec.getLsbD_append]
    rcases Nat.le_succ_iff.1 hr with hbefore | rfl
    · rw [if_neg (by omega), show 8 * (n + 1) + 7 - (8 * r + k) - 8 = 8 * n + 7 - (8 * r + k) by omega, ih hbefore]
    · rw [if_pos (by omega), show 8 * (n + 1) + 7 - (8 * (n + 1) + k) = 7 - k by omega]

theorem getLsbD_glyphMask (c : Config) (char : Byte) {r k : Nat} (hr : r < 8) (hk : k < 8) :
    (glyphMask c char).getLsbD (63 - (8 * r + k)) = glyphBit c char r k := by
  rw [glyphMask_eq_glyphRows, ← getLsbD_glyphRows c char (Nat.le_of_lt_succ hr) hk]

/-! ### The scan order and the set bits (R143) -/

/-- The scan counter after `n` bits were examined (spec/10_state.md R31). -/
def scanPosition (n : Nat) : Scan := ⟨BitVec.ofNat 3 (n / 8), BitVec.ofNat 3 (n % 8)⟩

theorem scanOrder_eq_map : scanOrder = (List.range 64).map scanPosition := by decide

theorem scanBit_scanPosition (c : Config) (char : Byte) {n : Nat} (hn : n < 64) :
    scanBit c char (scanPosition n) = (glyphMask c char).getLsbD (63 - n) := by
  have hrow : n / 8 < 8 := by omega
  have hcol : n % 8 < 8 := by omega
  have hbit := getLsbD_glyphMask c char hrow hcol
  rw [Nat.div_add_mod] at hbit
  rw [hbit, scanBit, scanPosition, BitVec.toNat_ofNat, BitVec.toNat_ofNat, Nat.mod_eq_of_lt hrow, Nat.mod_eq_of_lt hcol]

/-- The scan visits the bits of Mask from 63 down to 0, so its set bits are counted from either end. -/
theorem length_setBits (c : Config) (char : Byte) :
    (setBits c char).length = ((List.range 64).filter fun n => (glyphMask c char).getLsbD n).length := by
  have hdown : (List.range 64).map (63 - ·) = (List.range 64).reverse := by decide
  calc (setBits c char).length
      = (List.range 64).countP fun n => scanBit c char (scanPosition n) := by
        rw [setBits, scanOrder_eq_map, ← List.countP_eq_length_filter, List.countP_map, Function.comp_def]
    _ = (List.range 64).countP fun n => (glyphMask c char).getLsbD (63 - n) :=
        List.countP_congr fun n hn => by rw [scanBit_scanPosition c char (List.mem_range.1 hn)]
    _ = ((List.range 64).map (63 - ·)).countP fun n => (glyphMask c char).getLsbD n := by
        rw [List.countP_map, Function.comp_def]
    _ = ((List.range 64).filter fun n => (glyphMask c char).getLsbD n).length := by
        rw [hdown, List.countP_reverse, List.countP_eq_length_filter]

/-- Settles O16: the bits by their rows, the count by the scan's order. -/
theorem maskIsGlyphInScanOrder : Obligations.MaskIsGlyphInScanOrder := fun c char =>
  ⟨fun _ _ hr hk => getLsbD_glyphMask c char hr hk, length_setBits c char⟩

/-! ### The command (R144, R146) -/

/-- In bounds and clear of the block's own window, GLYPH draws its set bits as pixels in scan order. -/
theorem exec_glyph_of_inBounds {s : State} {sc : Screen} {char : Byte} (hb : InBoundsGlyph s sc)
    (hw : hitsWindow s.cfg (glyphWrites s sc char) = false) :
    exec (.glyph sc char) s = .next (s.drawPixels sc ((setBits s.cfg char).map (scanOffset s sc))) := by
  simp [exec, execGlyph, hb, hw]

/-- Out of bounds, GLYPH raises BoundsFault whatever its glyph is. -/
theorem exec_glyph_of_not_inBounds {s : State} {sc : Screen} (hb : ¬ InBoundsGlyph s sc) (char : Byte) :
    exec (.glyph sc char) s = .next (s.raise .boundsFault (encode (.glyph sc char))) :=
  if_neg hb

theorem setBits_eq_nil_of_glyphMask_eq_zero {c : Config} {char : Byte} (h : glyphMask c char = 0) :
    setBits c char = [] := by
  rw [← List.length_eq_zero_iff, length_setBits, h]
  simp

/-- Settles O20: without a set bit there is no byte to write and no pixel to draw, and only the extent check is left. -/
theorem emptyGlyphStillChecksItsExtent : Obligations.EmptyGlyphStillChecksItsExtent := by
  intro s sc char hmask
  have hnone : setBits s.cfg char = [] := setBits_eq_nil_of_glyphMask_eq_zero hmask
  have hclear : hitsWindow s.cfg (glyphWrites s sc char) = false :=
    hitsWindow_eq_false_iff.2 (by simp [glyphWrites, hnone])
  refine ⟨fun hb => ?_, fun hb => exec_glyph_of_not_inBounds hb char⟩
  rw [exec_glyph_of_inBounds hb hclear, hnone, List.map_nil, State.drawPixels_nil]

end Sys2Proof.Machine
end

section
/-! The frame pacer's timer (spec/42_frame_pacer.md R160, R161, R163, R178): what FPRATE and FPSTART answer, and that the
latched DELAY fits its register. -/

namespace Sys2Proof.Machine

/-! ### The commands (R160, R163) -/

theorem exec_fprate (rate : Byte) (s : State) : exec (.fprate rate) s = .next { s with rate := rate } := rfl

/-- With a rate, FPSTART latches DELAY, zeroes TICK and sets RUN. -/
theorem exec_fpstart_of_rate_ne_zero {s : State} (h : s.rate ≠ 0) : exec .fpstart s = .next s.startTimer :=
  if_neg h

/-! ### The latched delay (R161; spec/00_scope.md R7) -/

theorem fTick_lt_of_wf {c : Config} (hc : c.Wf) : c.fTick < 2 ^ 32 := by
  obtain ⟨-, -, -, -, ⟨-, hlt⟩, -⟩ := hc
  exact hlt

theorem pacerDelay_le (f rate : Nat) : pacerDelay f rate ≤ f / 1024 :=
  Nat.div_le_self ..

/-- DELAY is at most `F_TICK / 1024`, so at every rate its register holds it whole. -/
theorem startTimer_delay_toNat {s : State} (hc : s.cfg.Wf) :
    s.startTimer.delay.toNat = pacerDelay s.cfg.fTick s.rate.toNat := by
  have hfits : pacerDelay s.cfg.fTick s.rate.toNat < 2 ^ 32 :=
    calc pacerDelay s.cfg.fTick s.rate.toNat
        ≤ s.cfg.fTick / 1024 := pacerDelay_le ..
      _ ≤ s.cfg.fTick := Nat.div_le_self ..
      _ < 2 ^ 32 := fTick_lt_of_wf hc
  rw [State.startTimer_delay, BitVec.toNat_ofNat, Nat.mod_eq_of_lt hfits]

/-- Settles O31: FPRATE leaves RATE at 30, so FPSTART finds a rate and latches its delay. -/
theorem rateThirtyGivesItsDelay : Obligations.RateThirtyGivesItsDelay := by
  intro s hc
  have hrate : ({ s with rate := 30 } : State).rate ≠ 0 := by simp
  exact ⟨_, _, exec_fprate 30 s, exec_fpstart_of_rate_ne_zero hrate, startTimer_delay_toNat hc,
    State.startTimer_tick _, State.startTimer_run _⟩

end Sys2Proof.Machine
end

section
/-! DRAWFORMATTED (spec/43_host_sequences.md R210 to R212): what template substitution does at a conversion and at any other
character, and that a text which fits FORMAT_MAX is handed to DRAWSTRING whole. -/

namespace Sys2Proof.Machine

/-! ### Template substitution, one rule per kind of character (R210) -/

theorem decimalDigits_of_lt_ten {n : Nat} (h : n < 10) (fuel : Nat) :
    decimalDigits (fuel + 1) n = [BitVec.ofNat 8 (0x30 + n)] := by
  rw [decimalDigits, if_pos h]

@[simp] theorem formatTemplate_nil : formatTemplate false [] [] = some [] := by
  rw [formatTemplate]

theorem formatTemplate_literal {ch : Byte} (h : ch ≠ 0x25) (rest : List Byte) (args : List Nat) :
    formatTemplate false (ch :: rest) args = (formatTemplate false rest args).map (ch :: ·) := by
  rw [formatTemplate, if_neg h]

theorem formatTemplate_decimal (rest : List Byte) (n : Nat) (args : List Nat) :
    formatTemplate false (0x25 :: 0x64 :: rest) (n :: args) =
      (formatTemplate false rest args).map (decimalDigits (n + 1) n ++ ·) := by
  rw [formatTemplate, if_pos rfl, formatTemplate, if_pos rfl]

/-- An argument below ten stands in the text as its one digit. -/
theorem formatTemplate_digit {n : Nat} (h : n < 10) (rest : List Byte) (args : List Nat) :
    formatTemplate false (0x25 :: 0x64 :: rest) (n :: args) =
      (formatTemplate false rest args).map (BitVec.ofNat 8 (0x30 + n) :: ·) := by
  simp only [formatTemplate_decimal, decimalDigits_of_lt_ten h, List.singleton_append]

/-- The template `%d/%d` gives two one-digit arguments with the slash between them. -/
theorem formatTemplate_digit_slash_digit {m n : Nat} (hm : m < 10) (hn : n < 10) :
    formatTemplate false [0x25, 0x64, 0x2F, 0x25, 0x64] [m, n] =
      some [BitVec.ofNat 8 (0x30 + m), 0x2F, BitVec.ofNat 8 (0x30 + n)] := by
  rw [formatTemplate_digit hm, formatTemplate_literal (by decide), formatTemplate_digit hn, formatTemplate_nil]
  rfl

/-! ### The formatted text as DRAWSTRING receives it (R211) -/

theorem drawFormatted_of_fits {c : Config} {template text : List Byte} {args : List Nat}
    (htext : formatTemplate false template args = some text) (hfits : text.length ≤ c.formatMax)
    (g : Grain) (sc : Screen) (posX posY : Nat) (color : Word) :
    drawFormatted c g sc posX posY color template args = drawString c g sc posX posY color text := by
  simp [drawFormatted, htext, List.take_of_length_le hfits]

/-- Settles O59: the text `3/7` has three characters, so FORMAT_MAX does not cut it. -/
theorem formattedExampleDrawsItsText : Obligations.FormattedExampleDrawsItsText := by
  intro c g sc posX posY color hmax
  have htext : formatTemplate false [0x25, 0x64, 0x2F, 0x25, 0x64] [3, 7] = some [0x33, 0x2F, 0x37] :=
    formatTemplate_digit_slash_digit (by omega) (by omega)
  exact drawFormatted_of_fits htext hmax g sc posX posY color

end Sys2Proof.Machine
end

section
/-! The reset input (spec/70_reset_and_hazards.md R270, R271, R273): the step that takes it, in every condition of the sequencer,
and what STATUS reads after it. -/

namespace Sys2Proof.Machine

/-! ### The step that takes the reset (R270) -/

section
variable {s : State} {rest : List Input} (hi : s.inputs = .reset :: rest)
include hi

theorem idleStep_of_reset : idleStep s = .next ({ s with inputs := rest } : State).resetBlock := by
  rw [idleStep, hi]

/-- A held FPWAIT that has reached its delay completes first (assumption log 9). -/
theorem waitingStep_of_reset (hr : ¬ Reached s) :
    waitingStep s = .next ({ s with inputs := rest } : State).resetBlock := by
  rw [waitingStep, if_neg hr, hi]

theorem drawingStep_of_reset : drawingStep s = .next ({ s with inputs := rest } : State).resetBlock := by
  rw [drawingStep, hi]

/-- Whatever the sequencer is doing, it is abandoned: only a held FPWAIT may not have reached its delay. -/
theorem step_of_reset (hr : s.seq = .waiting → ¬ Reached s) :
    step s = .next ({ s with inputs := rest } : State).resetBlock := by
  cases hseq : s.seq with
  | idle => exact (step_of_idle hseq).trans (idleStep_of_reset hi)
  | waiting => exact (step_of_waiting hseq).trans (waitingStep_of_reset hi (hr hseq))
  | drawing sc scan pending => exact (step_of_drawing hseq).trans (drawingStep_of_reset hi)

end

/-! ### The reset values (R271) -/

/-- Delay 0 and the timer at 0 make REACHED read 1; RUN, ERR and ERRCODE read 0. -/
theorem statusWord_resetBlock (s : State) : statusWord s.resetBlock = 0x00000001 := by
  simp [statusWord, flagAt]

/-- Settles O48: the step is `resetBlock`, whose fields and STATUS word are the reset values. -/
theorem resetGivesResetValues : Obligations.ResetGivesResetValues := by
  intro s rest hwait hi
  have hstep : step s = .next ({ s with inputs := rest } : State).resetBlock :=
    step_of_reset hi fun hseq hreached => hwait ⟨hseq, hreached⟩
  have hstatus : ({ s with inputs := rest } : State).resetBlock.readReg .status = 0x00000001 :=
    statusWord_resetBlock _
  exact ⟨_, hstep, by simp [hstatus]⟩

end Sys2Proof.Machine
end

section
/-! The encoder against the decoder (spec/30_encoding.md R91 to R97): the fields of a command's word, that a word spells exactly
the command whose word it is, and which words are illegal. -/

namespace Sys2Proof

/-! ### The fields of a command's word (R91, R92, R95) -/

/-- OPC of a command's row. -/
def Instr.opcode : Instr → BitVec 4
  | .nop => 0
  | .pxaddr _ _ _ => 1
  | .pxput _ _ _ => 2
  | .glyph _ _ => 3
  | .fprate _ => 4
  | .fpstart => 5
  | .fpwait => 6
  | .fpstop => 7

/-- S of a command's word: its screen, and 0 in the formats without one. -/
def Instr.screenBit : Instr → BitVec 1
  | .pxaddr sc _ _ => sc.toBit
  | .pxput sc _ _ => sc.toBit
  | .glyph sc _ => sc.toBit
  | _ => 0

/-- ARG of a command's word: its cell, its character, its rate, or 0. -/
def Instr.arg : Instr → Byte
  | .pxaddr _ row col => 0#2 ++ row ++ col
  | .pxput _ row col => 0#2 ++ row ++ col
  | .glyph _ char => char
  | .fprate rate => rate
  | _ => 0

/-- An operand's bits lie in S and ARG, so they come through beside the match word of any row. -/
theorem fields_or (v s a : Word) :
    opcField (v ||| s ||| a) = opcField v ||| opcField s ||| opcField a ∧
      sField (v ||| s ||| a) = sField v ||| sField s ||| sField a ∧
      zField (v ||| s ||| a) = zField v ||| zField s ||| zField a ∧
      argField (v ||| s ||| a) = argField v ||| argField s ||| argField a := by
  simp only [opcField, sField, zField, argField, BitVec.extractLsb'_or, and_self]

theorem fields_screen (sc : Screen) :
    opcField sc.field = 0 ∧ sField sc.field = sc.toBit ∧ zField sc.field = 0 ∧ argField sc.field = 0 := by
  cases sc with
  | bottom => decide
  | top => decide

theorem fields_byte (b : Byte) :
    opcField (b.setWidth 32) = 0 ∧ sField (b.setWidth 32) = 0 ∧ zField (b.setWidth 32) = 0 ∧
      argField (b.setWidth 32) = b := by
  revert b
  decide

theorem cellField_eq_setWidth (row col : BitVec 3) : cellField row col = (0#2 ++ row ++ col).setWidth 32 := by
  revert row col
  decide

/-- The fields of every command's word. -/
theorem fields_encode (i : Instr) :
    opcField (encode i) = i.opcode ∧ sField (encode i) = i.screenBit ∧ zField (encode i) = 0 ∧ argField (encode i) = i.arg := by
  have placed (v : Word) (sc : Screen) (b : Byte) (hs : sField v = 0) (hz : zField v = 0) (harg : argField v = 0) :
      opcField (v ||| sc.field ||| b.setWidth 32) = opcField v ∧ sField (v ||| sc.field ||| b.setWidth 32) = sc.toBit ∧
        zField (v ||| sc.field ||| b.setWidth 32) = 0 ∧ argField (v ||| sc.field ||| b.setWidth 32) = b := by
    obtain ⟨ho, hs', hz', ha⟩ := fields_screen sc
    obtain ⟨hbo, hbs, hbz, hba⟩ := fields_byte b
    simp [fields_or, ho, hs', hz', ha, hbo, hbs, hbz, hba, hs, hz, harg]
  cases i with
  | nop => decide
  | pxaddr sc row col =>
    rw [encode, cellField_eq_setWidth]
    exact placed _ sc _ (by decide) (by decide) (by decide)
  | pxput sc row col =>
    rw [encode, cellField_eq_setWidth]
    exact placed _ sc _ (by decide) (by decide) (by decide)
  | glyph sc char => exact placed _ sc char (by decide) (by decide) (by decide)
  | fprate rate =>
    have h := placed 0x40000000 .bottom rate (by decide) (by decide) (by decide)
    rwa [show 0x40000000 ||| Screen.field .bottom = 0x40000000 by decide] at h
  | fpstart => decide
  | fpwait => decide
  | fpstop => decide

/-! ### The command that a word spells (R94) -/

theorem ofBit_eq_iff {b : BitVec 1} {sc : Screen} : Screen.ofBit b = sc ↔ b = sc.toBit := by
  revert b
  cases sc with
  | bottom => decide
  | top => decide

/-- ARG is the cell of a command of format P exactly when its reserved bits are 0 and ROW and COL are the cell's. -/
theorem argField_eq_cell_iff {w : Word} {row col : BitVec 3} :
    argField w = 0#2 ++ row ++ col ↔ argHighField w = 0 ∧ rowField w = row ∧ colField w = col := by
  have hhigh : argHighField w = (argField w).extractLsb' 6 2 := by
    simp [argHighField, argField, BitVec.extractLsb'_extractLsb'_of_le]
  have hrow : rowField w = (argField w).extractLsb' 3 3 := by
    simp [rowField, argField, BitVec.extractLsb'_extractLsb'_of_le]
  have hcol : colField w = (argField w).extractLsb' 0 3 := by
    simp [colField, argField, BitVec.extractLsb'_extractLsb'_of_le]
  rw [hhigh, hrow, hcol]
  constructor
  · intro h
    rw [h]
    clear h
    revert row col
    decide
  · rintro ⟨h6, rfl, rfl⟩
    revert h6
    generalize argField w = b
    revert b
    decide

/-- A word spells a command exactly when its four fields are the command's. -/
theorem decode_eq_command_iff_fields {w : Word} {i : Instr} :
    decode w = .command i ↔
      opcField w = i.opcode ∧ sField w = i.screenBit ∧ zField w = 0 ∧ argField w = i.arg := by
  rw [decode_eq_command_iff]
  cases i with
  | pxaddr | pxput =>
    simp [Instr.opcode, Instr.screenBit, Instr.arg, argField_eq_cell_iff, ofBit_eq_iff, and_assoc, and_left_comm, and_comm]
  | glyph => simp [Instr.opcode, Instr.screenBit, Instr.arg, ofBit_eq_iff, and_left_comm]
  | _ => simp [Instr.opcode, Instr.screenBit, Instr.arg, and_left_comm]

/-- A word spells the one command whose word it is. -/
theorem decode_eq_command_iff_encode {w : Word} {i : Instr} : decode w = .command i ↔ encode i = w := by
  obtain ⟨hopc, hs, hz, harg⟩ := fields_encode i
  rw [decode_eq_command_iff_fields, word_eq_iff_fields, hopc, hs, hz, harg]
  simp only [eq_comm]

/-- Settles O1: a command's word is its own. -/
theorem decodeOfEncode : Obligations.DecodeOfEncode := fun _ => decode_eq_command_iff_encode.2 rfl

/-- Settles O2: a word that spells a command is that command's word. -/
theorem encodeOfDecode : Obligations.EncodeOfDecode := fun _ _ h => decode_eq_command_iff_encode.1 h

end Sys2Proof
end

section
/-! The host's accesses as steps (spec/10_state.md R36 to R47): an access to a register's own address, a command word written to
CMD, and the host's own store. -/

namespace Sys2Proof.Machine

/-! ### An access to a register's own address -/

theorem baseAligned_of_wf {c : Config} (hc : c.Wf) : c.BaseAligned := by
  obtain ⟨-, -, -, -, -, -, haligned, -⟩ := hc
  exact haligned

theorem baseFits_of_wf {c : Config} (hc : c.Wf) : c.BaseFits := by
  obtain ⟨-, -, -, -, -, -, -, hfits, -⟩ := hc
  exact hfits

section
variable {s : State} {rest : List Input} {g : Grain}

theorem step_of_access {a : Access} (hs : s.seq = .idle) (hi : s.inputs = .access g a :: rest) :
    step s = hostAccess g a { s with inputs := rest } := by
  rw [step_of_idle hs, idleStep, hi]

theorem step_of_store {a : Word} {b : Byte} (hs : s.seq = .idle) (hi : s.inputs = .store a b :: rest) :
    step s = hostStore a b { s with inputs := rest } := by
  rw [step_of_idle hs, idleStep, hi]

/-- A read of a register takes the input and adds its record. -/
theorem step_of_read {r : Reg} (hc : s.cfg.Wf) (hs : s.seq = .idle)
    (hi : s.inputs = .access g (.read (regAddr s.cfg r) 4) :: rest) :
    step s = .next { s with inputs := rest, history := s.history ++ [.regRead (regOffset r) (s.readReg r)] } := by
  rw [step_of_access hs hi, hostAccess_regAddr (s := { s with inputs := rest }) (baseAligned_of_wf hc) (baseFits_of_wf hc)
    g r _ (.inl rfl), regAccess_read]
  cases r <;> rfl

/-- A write to a register other than CMD takes the input, stores, and adds its record. -/
theorem step_of_write {r : Reg} {v : Word} (hr : r ≠ .cmd) (hc : s.cfg.Wf) (hs : s.seq = .idle)
    (hi : s.inputs = .access g (.write (regAddr s.cfg r) 4 v) :: rest) :
    step s = .next { s.writeReg r v with
      inputs := rest, history := s.history ++ [.regWrite (regOffset r) v] } := by
  rw [step_of_access hs hi, hostAccess_regAddr (s := { s with inputs := rest }) (baseAligned_of_wf hc) (baseFits_of_wf hc)
    g r _ (.inr ⟨v, rfl⟩), regAccess_write hr]
  cases r <;> rfl

/-- A write to CMD takes the input, adds its record, and hands the word over for acceptance. -/
theorem step_of_commandInput {w : Word} (hc : s.cfg.Wf) (hs : s.seq = .idle)
    (hi : s.inputs = commandInput s.cfg g w :: rest) :
    step s = acceptCommand g w { s with inputs := rest, history := s.history ++ [.regWrite 0 w] } := by
  rw [step_of_access hs hi, hostAccess_regAddr (s := { s with inputs := rest }) (baseAligned_of_wf hc) (baseFits_of_wf hc)
    g .cmd _ (.inr ⟨w, rfl⟩)]
  rfl

/-- The write of a word that spells a command runs it at the state with both records. -/
theorem step_of_command {w : Word} {i : Instr} (hc : s.cfg.Wf) (hs : s.seq = .idle) (he : s.err = false)
    (hd : decode w = .command i) (hi : s.inputs = commandInput s.cfg g w :: rest) :
    step s = runCommand g i { s with inputs := rest, history := s.history ++ [.regWrite 0 w, .cmd w] } := by
  refine (step_of_commandInput hc hs hi).trans ((acceptCommand_of_command (by exact he) hd).trans ?_)
  simp [State.record]

end

/-! ### The register window's statements -/

/-- Settles O39: each pair of an offset and a value is a register's. -/
theorem registerReadHasNoSideEffect : Obligations.RegisterReadHasNoSideEffect := by
  intro s rest g n v hc hs hi hv
  have hreg : ∃ r, n = regOffset r ∧ v = s.readReg r := by
    simp only [Prod.mk.injEq] at hv
    rcases hv with h | h | h | h | h | h | h | h | h | h | h | h | h
    · exact ⟨.cmd, h⟩
    · exact ⟨.status, h⟩
    · exact ⟨.posX, h⟩
    · exact ⟨.posY, h⟩
    · exact ⟨.color, h⟩
    · exact ⟨.offset, h⟩
    · exact ⟨.fbdraw0, h⟩
    · exact ⟨.fbdraw1, h⟩
    · exact ⟨.rate, h⟩
    · exact ⟨.delay, h⟩
    · exact ⟨.tick, h⟩
    · exact ⟨.swapCnt, h⟩
    · exact ⟨.errInfo, h⟩
  obtain ⟨r, rfl, rfl⟩ := hreg
  exact step_of_read hc hs hi

/-- Settles O40: each offset is that of a register other than CMD, and what `writeReg` does there is what is asked. -/
theorem registerWriteStores : Obligations.RegisterWriteStores := by
  intro s t rest g n v hc hs hi ht
  have hreg : ∃ r, r ≠ .cmd ∧ n = regOffset r ∧ t = s.writeReg r v := by
    rcases ht with h | h | h | h | h | h | ⟨h | h | h | h | h | h, rfl⟩
    · exact ⟨.posX, by decide, h⟩
    · exact ⟨.posY, by decide, h⟩
    · exact ⟨.color, by decide, h⟩
    · exact ⟨.fbdraw0, by decide, h⟩
    · exact ⟨.fbdraw1, by decide, h⟩
    · exact ⟨.tick, by decide, h⟩
    · exact ⟨.status, by decide, h, rfl⟩
    · exact ⟨.offset, by decide, h, rfl⟩
    · exact ⟨.rate, by decide, h, rfl⟩
    · exact ⟨.delay, by decide, h, rfl⟩
    · exact ⟨.swapCnt, by decide, h, rfl⟩
    · exact ⟨.errInfo, by decide, h, rfl⟩
  obtain ⟨r, hr, rfl, rfl⟩ := hreg
  exact step_of_write hr hc hs hi

theorem hostAccess_of_refusal {g : Grain} {a : Access} {s : State} {why : Refusal}
    (h : accessRefusal s.cfg a = some why) : hostAccess g a s = .refused why := by
  rw [hostAccess, h]

/-- Settles O41: the checks of `accessRefusal`, in their order. -/
theorem unsupportedAccessIsRefused : Obligations.UnsupportedAccessIsRefused := by
  intro s rest g a hs hi hw
  rw [step_of_access hs hi]
  have hwindow : a.ToWindow s.cfg := hw
  refine ⟨fun hsize => ?_, fun hsize halign => ?_, fun hsize halign hoff => ?_⟩
  · refine hostAccess_of_refusal ?_
    have hwide : ¬ a.WordWide := hsize
    simp [accessRefusal, hwindow, hwide]
  · refine hostAccess_of_refusal ?_
    have hwide : a.WordWide := hsize
    have halign : ¬ a.Aligned := halign
    simp [accessRefusal, hwindow, hwide, halign]
  · refine hostAccess_of_refusal ?_
    have hwide : a.WordWide := hsize
    have halign : a.Aligned := halign
    have hoff : ¬ a.NotReserved s.cfg := by
      rw [Access.NotReserved]
      omega
    simp [accessRefusal, hwindow, hwide, halign, hoff]

/-- Settles O42. -/
theorem commandIsDroppedAfterFault : Obligations.CommandIsDroppedAfterFault := fun _ _ _ _ hc hs he hi =>
  (step_of_commandInput hc hs hi).trans (acceptCommand_of_err he)

/-- Settles O43: the two grains of one acceptance. -/
theorem stepRunsTheDecodedCommand : Obligations.StepRunsTheDecodedCommand := fun _ _ _ _ hc hs he hd =>
  ⟨fun hi => step_of_command hc hs he hd hi, fun hi => step_of_command hc hs he hd hi⟩

theorem decodeTableWord_eq_some_iff {nbits w : Nat} {i : Instr} :
    decodeTableWord nbits w = some i ↔ decode (BitVec.ofNat 32 (w % 2 ^ nbits)) = .command i := by
  unfold decodeTableWord
  cases decode (BitVec.ofNat 32 (w % 2 ^ nbits)) with
  | command j => simp
  | illegal why => simp

/-- Settles O44: the word put in the inputs is the one that `decodeTableWord` reads. -/
theorem fetchWordRunsNext : Obligations.FetchWordRunsNext := by
  intro s w i hc hs he hd
  rw [decodeTableWord_eq_some_iff] at hd
  have hword : BitVec.ofNat 32 (w % 2 ^ 32) = BitVec.ofNat 32 w := BitVec.eq_of_toNat_eq (by simp)
  have hstep := step_of_command (s := s.withFetchWord 32 w) (g := .whole) hc hs he hd rfl
  rwa [hword] at hstep

/-- Settles O46: in the window the store is refused; elsewhere it is one byte on the bus. -/
theorem hostStoreWritesOneByte : Obligations.HostStoreWritesOneByte := by
  intro s rest a b hs hi
  rw [step_of_store hs hi]
  refine ⟨fun hw => if_pos hw, fun hw => ⟨_, if_neg hw, rfl, fun hm => ?_, fun x hx => ?_⟩⟩
  · exact (Memory.read_store s.cfg s.memory a a b).trans (if_pos ⟨rfl, hm⟩)
  · refine (Memory.read_store s.cfg s.memory a x b).trans (if_neg ?_)
    rintro ⟨rfl, hm⟩
    rcases hx with hne | hlost
    · exact hne rfl
    · simp [hm] at hlost

/-! ### Illegal words (spec/30_encoding.md R96, R97) -/

/-- A word that spells no command raises IllegalCommand, at its acceptance and at the step that takes its write. -/
theorem raisesIllegal_of_no_command {g : Grain} {w : Word} {s : State} (he : s.err = false)
    (hw : ∀ i, decode w ≠ .command i) : RaisesIllegal g w s := by
  obtain ⟨why, hwhy⟩ : ∃ why, decode w = .illegal why := by
    cases hd : decode w with
    | command i => exact absurd hd (hw i)
    | illegal why => exact ⟨why, rfl⟩
  refine ⟨?_, fun rest hc hs hi => ?_⟩
  · refine (acceptCommand_of_illegal he hwhy).trans ?_
    simp [State.record, State.raise, Cause.code]
  · refine (step_of_commandInput hc hs hi).trans ((acceptCommand_of_illegal (by exact he) hwhy).trans ?_)
    simp [State.record, State.raise, Cause.code]

/-- A word of a row's opcode that is no word of the row raises IllegalCommand. -/
theorem raisesIllegal_of_opcode {g : Grain} {w : Word} {s : State} {opc : BitVec 4} (he : s.err = false)
    (hopc : opcField w = opc) (hw : ∀ i : Instr, i.opcode = opc → w ≠ encode i) : RaisesIllegal g w s :=
  raisesIllegal_of_no_command he fun i hd => by
    obtain ⟨hrow, -⟩ := decode_eq_command_iff_fields.1 hd
    exact hw i (hrow.symm.trans hopc) (decode_eq_command_iff_encode.1 hd).symm

theorem opcode_toNat_lt (i : Instr) : i.opcode.toNat < 8 := by
  cases i <;> simp [Instr.opcode]

theorem opcField_toNat (w : Word) : (opcField w).toNat = w.toNat / 2 ^ 28 := by
  rw [opcField, BitVec.extractLsb'_toNat, Nat.shiftRight_eq_div_pow]
  omega

/-- Settles O5: no command has an opcode from 8 on. -/
theorem reservedOpcodeRaisesIllegalCommand : Obligations.ReservedOpcodeRaisesIllegalCommand := by
  intro g w s he hw
  refine raisesIllegal_of_opcode he rfl fun i hopc => ?_
  have hlt := opcode_toNat_lt i
  rw [hopc, opcField_toNat] at hlt
  omega

/-- Settles O6: a command's word has 0 in Z and, by its format, in S, in ARG or in ARG[7:6]. -/
theorem reservedBitRaisesIllegalCommand : Obligations.ReservedBitRaisesIllegalCommand := by
  intro g w s he _ hbits
  refine raisesIllegal_of_no_command he fun i hd => ?_
  change zField w ≠ 0 ∨
    ((opcField w = 0 ∨ opcField w = 5 ∨ opcField w = 6 ∨ opcField w = 7) ∧ (sField w ≠ 0 ∨ argField w ≠ 0)) ∨
    ((opcField w = 1 ∨ opcField w = 2) ∧ argHighField w ≠ 0) ∨ (opcField w = 4 ∧ sField w ≠ 0) at hbits
  obtain ⟨hz, hformat⟩ := decode_eq_command_iff.1 hd
  rcases hformat with ⟨h, hs, ha, -⟩ | ⟨h, ha, -⟩ | ⟨h, ha, -⟩ | ⟨h, -⟩ | ⟨h, hs, -⟩ | ⟨h, hs, ha, -⟩ | ⟨h, hs, ha, -⟩ |
    ⟨h, hs, ha, -⟩
  all_goals simp_all

end Sys2Proof.Machine
end

section
/-! What a command can do and what a step can do, each said once: every property of all commands or of all steps follows by the
cases below (spec/10_state.md R25, R30; spec/70_reset_and_hazards.md R291). -/

namespace Sys2Proof.Machine

/-! ### Commands -/

/-- Only the two drawing commands have an inside, so at both grains the others are one step. -/
theorem runCommand_eq_exec {i : Instr} (hput : ∀ sc row col, i ≠ .pxput sc row col) (hglyph : ∀ sc char, i ≠ .glyph sc char)
    (g : Grain) (s : State) : runCommand g i s = exec i s := by
  cases g with
  | whole => rfl
  | stepwise =>
    cases i with
    | pxput sc row col => exact absurd rfl (hput sc row col)
    | glyph sc char => exact absurd rfl (hglyph sc char)
    | _ => rfl

/-- What a command does at a grain, where the model does not refuse it. -/
inductive CommandEffect (s : State) : Grain → Instr → State → Prop
  | nothing (g : Grain) : CommandEffect s g .nop s
  | faulted (g : Grain) (i : Instr) (f : Cause) : CommandEffect s g i (s.raise f (encode i))
  | latched (g : Grain) (sc : Screen) (row col : BitVec 3) (hb : InBoundsPixel s sc row.toNat col.toNat) :
      CommandEffect s g (.pxaddr sc row col) (s.latchOffset (cellOffset s sc row.toNat col.toNat))
  | pixelDrawn (sc : Screen) (row col : BitVec 3) (hb : InBoundsPixel s sc row.toNat col.toNat)
      (hw : hitsWindow s.cfg (pixelWrites s sc (cellOffset s sc row.toNat col.toNat)) = false) :
      CommandEffect s .whole (.pxput sc row col) (s.drawPixel sc (cellOffset s sc row.toNat col.toNat))
  | pixelBegun (sc : Screen) (row col : BitVec 3) (hb : InBoundsPixel s sc row.toNat col.toNat)
      (hw : hitsWindow s.cfg (pixelWrites s sc (cellOffset s sc row.toNat col.toNat)) = false) :
      CommandEffect s .stepwise (.pxput sc row col)
        { s.latchOffset (cellOffset s sc row.toNat col.toNat) with
          seq := .drawing sc none (pixelWrites s sc (cellOffset s sc row.toNat col.toNat)) }
  | glyphDrawn (sc : Screen) (char : Byte) (hb : InBoundsGlyph s sc)
      (hw : hitsWindow s.cfg (glyphWrites s sc char) = false) :
      CommandEffect s .whole (.glyph sc char) (s.drawPixels sc ((setBits s.cfg char).map (scanOffset s sc)))
  | glyphBegun (sc : Screen) (char : Byte) (hb : InBoundsGlyph s sc)
      (hw : hitsWindow s.cfg (glyphWrites s sc char) = false) :
      CommandEffect s .stepwise (.glyph sc char) { s with seq := .drawing sc (some (char, Scan.first)) [] }
  | rateSet (g : Grain) (rate : Byte) : CommandEffect s g (.fprate rate) { s with rate := rate }
  | timerStarted (g : Grain) : CommandEffect s g .fpstart s.startTimer
  | waitCompleted (g : Grain) (hr : Reached s) : CommandEffect s g .fpwait s.completeWait
  | waitHeld (g : Grain) (hr : ¬ Reached s) : CommandEffect s g .fpwait { s with seq := .waiting }
  | timerStopped (g : Grain) : CommandEffect s g .fpstop { s with run := false }

/-- The answer of a check: the fault, the refusal, or the next state. -/
theorem eq_next_of_checks {inBounds : Prop} [Decidable inBounds] {hits : Bool} {u v t : State}
    (h : (if inBounds then if hits then .refused .windowOverlap else .next u else .next v : Outcome) = .next t) :
    (inBounds ∧ hits = false ∧ t = u) ∨ t = v := by
  split at h
  · next hb =>
    split at h
    · cases h
    · next hw => exact .inl ⟨hb, by simpa using hw, (Host.Outcome.next.inj h).symm⟩
  · exact .inr (Host.Outcome.next.inj h).symm

/-- What an accepted command does, every case. -/
theorem commandEffect_of_runCommand {g : Grain} {i : Instr} {s t : State} (h : runCommand g i s = .next t) :
    CommandEffect s g i t := by
  cases i with
  | nop =>
    rw [runCommand_eq_exec (by simp) (by simp)] at h
    cases h
    exact .nothing g
  | pxaddr sc row col =>
    rw [runCommand_eq_exec (by simp) (by simp), exec, execPxaddr] at h
    split at h
    · next hb =>
      cases h
      exact .latched g sc row col hb
    · cases h
      exact .faulted g _ .boundsFault
  | pxput sc row col =>
    cases g with
    | whole =>
      obtain ⟨hb, hw, rfl⟩ | rfl := eq_next_of_checks h
      · exact .pixelDrawn sc row col hb hw
      · exact .faulted _ _ .boundsFault
    | stepwise =>
      obtain ⟨hb, hw, rfl⟩ | rfl := eq_next_of_checks h
      · exact .pixelBegun sc row col hb hw
      · exact .faulted _ _ .boundsFault
  | glyph sc char =>
    cases g with
    | whole =>
      obtain ⟨hb, hw, rfl⟩ | rfl := eq_next_of_checks h
      · exact .glyphDrawn sc char hb hw
      · exact .faulted _ _ .boundsFault
    | stepwise =>
      obtain ⟨hb, hw, rfl⟩ | rfl := eq_next_of_checks h
      · exact .glyphBegun sc char hb hw
      · exact .faulted _ _ .boundsFault
  | fprate rate =>
    rw [runCommand_eq_exec (by simp) (by simp)] at h
    cases h
    exact .rateSet g rate
  | fpstart =>
    rw [runCommand_eq_exec (by simp) (by simp), exec, execFpstart] at h
    split at h
    · cases h
      exact .faulted g _ .rateZero
    · cases h
      exact .timerStarted g
  | fpwait =>
    rw [runCommand_eq_exec (by simp) (by simp), exec, execFpwait] at h
    split at h
    · next hr =>
      cases h
      exact .waitCompleted g hr
    · next hr =>
      cases h
      exact .waitHeld g hr
  | fpstop =>
    rw [runCommand_eq_exec (by simp) (by simp)] at h
    cases h
    exact .timerStopped g

/-! ### Steps -/

/-- The register named by an access that the window supports has the access's address. -/
theorem eq_regAddr_of_regAt {c : Config} {a : Word} {r : Reg} (ha : InWindow c a)
    (hr : regAt (a.toNat - c.base) = some r) : a = regAddr c r := by
  obtain ⟨hlow, -⟩ := ha
  have hoff : a.toNat - c.base = regOffset r := by
    unfold regAt at hr
    split at hr
    all_goals cases hr
    all_goals assumption
  rw [regAddr, ← hoff, Nat.add_sub_cancel' hlow, BitVec.ofNat_toNat, BitVec.setWidth_eq]

/-- What a step that answers a next state does: who moved, and how. -/
inductive StepEffect (s : State) : State → Prop
  | ticked (rest : List Input) (hi : s.inputs = rest ∨ s.inputs = .tick :: rest)
      (hw : s.seq = .waiting → ¬ Reached s) : StepEffect s ({ s with inputs := rest } : State).ticked
  | reset (rest : List Input) (hi : s.inputs = .reset :: rest) (hw : s.seq = .waiting → ¬ Reached s) :
      StepEffect s ({ s with inputs := rest } : State).resetBlock
  | passed (rest : List Input) (hi : s.inputs = .sequencer :: rest) : StepEffect s { s with inputs := rest }
  | completed (hs : s.seq = .waiting) (hr : Reached s) : StepEffect s s.completeWait
  | drew (rest : List Input) (sc : Screen) (scan : Option (Byte × Scan)) (pending : List ByteWrite)
      (hi : s.inputs = rest ∨ s.inputs = .sequencer :: rest) (hs : s.seq = .drawing sc scan pending) :
      StepEffect s ({ s with inputs := rest } : State).drawStep
  | read (rest : List Input) (hs : s.seq = .idle) (r : Record) : StepEffect s (({ s with inputs := rest } : State).record r)
  | wrote (rest : List Input) (g : Grain) (r : Reg) (n : Nat) (v : Word) (hs : s.seq = .idle)
      (hi : s.inputs = .access g (.write (regAddr s.cfg r) n v) :: rest) :
      StepEffect s ((({ s with inputs := rest } : State).writeReg r v).record (.regWrite (regOffset r) v))
  | raisedIllegal (rest : List Input) (w : Word) (hs : s.seq = .idle) (he : s.err = false) :
      StepEffect s (((({ s with inputs := rest } : State).record (.regWrite 0 w)).record (.cmd w)).raise .illegalCommand w)
  | ran (rest : List Input) (g : Grain) (w : Word) (i : Instr) (t : State) (hs : s.seq = .idle) (he : s.err = false)
      (ht : CommandEffect ((({ s with inputs := rest } : State).record (.regWrite 0 w)).record (.cmd w)) g i t) :
      StepEffect s t
  | stored (rest : List Input) (a : Word) (b : Byte) (hs : s.seq = .idle) (hi : s.inputs = .store a b :: rest)
      (hw : ¬ InWindow s.cfg a) : StepEffect s { s with inputs := rest, memory := s.memory.store s.cfg a b }

/-- The host's access, every case. -/
theorem stepEffect_of_hostAccess {s t : State} {g : Grain} {a : Access} {rest : List Input} (hs : s.seq = .idle)
    (hi : s.inputs = .access g a :: rest) (h : hostAccess g a { s with inputs := rest } = .next t) : StepEffect s t := by
  obtain ⟨r, hr, ⟨hwindow, -⟩, ⟨p, n, rfl, rfl⟩ | ⟨p, n, v, rfl, rfl, h⟩ | ⟨p, n, v, rfl, -, rfl⟩⟩ := hostAccess_cases h
  · exact .read rest hs _
  · obtain ⟨-, rfl⟩ | ⟨he, i, -, h⟩ | ⟨he, why, -, rfl⟩ := acceptCommand_cases h
    · exact .read rest hs _
    · exact .ran rest g v i t hs he (commandEffect_of_runCommand h)
    · exact .raisedIllegal rest v hs he
  · obtain rfl : p = regAddr s.cfg r := eq_regAddr_of_regAt hwindow hr
    exact .wrote rest g r n v hs hi

/-- A step, every case. -/
theorem stepEffect_of_step {s t : State} (h : step s = .next t) : StepEffect s t := by
  cases hs : s.seq with
  | idle =>
    have hidle : s.seq = .waiting → ¬ Reached s := by simp [hs]
    rw [step_of_idle hs] at h
    rcases idleStep_cases h with ⟨hi, rfl⟩ | ⟨rest, hi, rfl⟩ | ⟨rest, hi, rfl⟩ | ⟨rest, hi, rfl⟩ | ⟨g, a, rest, hi, h⟩ |
      ⟨a, b, rest, hi, h⟩
    · exact .ticked s.inputs (.inl rfl) hidle
    · exact .ticked rest (.inr hi) hidle
    · exact .reset rest hi hidle
    · exact .passed rest hi
    · exact stepEffect_of_hostAccess hs hi h
    · obtain ⟨hw, rfl⟩ := hostStore_cases h
      exact .stored rest a b hs hi hw
  | waiting =>
    rw [step_of_waiting hs] at h
    rcases waitingStep_cases h with ⟨hr, rfl⟩ | ⟨hr, ⟨rest, hi, rfl⟩ | ⟨rest, hi, rfl⟩ | ⟨rest, hi, rfl⟩ | ⟨-, -, rfl⟩⟩
    · exact .completed hs hr
    · exact .reset rest hi fun _ => hr
    · exact .ticked rest (.inr hi) fun _ => hr
    · exact .passed rest hi
    · exact .ticked s.inputs (.inl rfl) fun _ => hr
  | drawing sc scan pending =>
    have hdrawing : s.seq = .waiting → ¬ Reached s := by simp [hs]
    rw [step_of_drawing hs] at h
    rcases drawingStep_cases h with ⟨rest, hi, rfl⟩ | ⟨rest, hi, rfl⟩ | ⟨rest, hi, rfl⟩ | ⟨-, rfl⟩
    · exact .reset rest hi hdrawing
    · exact .ticked rest (.inr hi) hdrawing
    · exact .drew rest sc scan pending (.inr hi) hs
    · exact .drew s.inputs sc scan pending (.inl rfl) hs

end Sys2Proof.Machine
end

section
/-! What every step leaves alone: the parameters (spec/10_state.md R54), the fault registers after a fault (spec/60_exceptions.md
R243), the inputs of a stalled host (R30), and the pacing guarantee (spec/42_frame_pacer.md R172). -/

namespace Sys2Proof.Machine

/-! ### The frame of a register write and of a drawing step -/

section
variable (s : State) (r : Reg) (v : Word)

@[simp] theorem State.writeReg_cfg : (s.writeReg r v).cfg = s.cfg := by cases r <;> rfl
@[simp] theorem State.writeReg_offset : (s.writeReg r v).offset = s.offset := by cases r <;> rfl
@[simp] theorem State.writeReg_rate : (s.writeReg r v).rate = s.rate := by cases r <;> rfl
@[simp] theorem State.writeReg_delay : (s.writeReg r v).delay = s.delay := by cases r <;> rfl
@[simp] theorem State.writeReg_run : (s.writeReg r v).run = s.run := by cases r <;> rfl
@[simp] theorem State.writeReg_swapCnt : (s.writeReg r v).swapCnt = s.swapCnt := by cases r <;> rfl
@[simp] theorem State.writeReg_err : (s.writeReg r v).err = s.err := by cases r <;> rfl
@[simp] theorem State.writeReg_errCode : (s.writeReg r v).errCode = s.errCode := by cases r <;> rfl
@[simp] theorem State.writeReg_errInfo : (s.writeReg r v).errInfo = s.errInfo := by cases r <;> rfl
@[simp] theorem State.writeReg_seq : (s.writeReg r v).seq = s.seq := by cases r <;> rfl
@[simp] theorem State.writeReg_memory : (s.writeReg r v).memory = s.memory := by cases r <;> rfl
@[simp] theorem State.writeReg_history : (s.writeReg r v).history = s.history := by cases r <;> rfl

theorem State.writeReg_tick_of_ne (hr : r ≠ .tick) : (s.writeReg r v).tick = s.tick := by
  cases r with
  | tick => exact absurd rfl hr
  | _ => rfl

end

/-- A step inside a drawing command changes OFFSET, the sequencer's condition, memory and the history. -/
theorem drawStep_eq (s : State) :
    s.drawStep = { s with
      offset := s.drawStep.offset, seq := s.drawStep.seq, memory := s.drawStep.memory, history := s.drawStep.history } := by
  unfold State.drawStep
  split
  · rfl
  · rfl
  · rfl
  · rfl
  · split
    · rfl
    · rfl

section
variable (s : State)

@[simp] theorem State.drawStep_cfg : s.drawStep.cfg = s.cfg := by rw [drawStep_eq]
@[simp] theorem State.drawStep_tick : s.drawStep.tick = s.tick := by rw [drawStep_eq]
@[simp] theorem State.drawStep_delay : s.drawStep.delay = s.delay := by rw [drawStep_eq]
@[simp] theorem State.drawStep_run : s.drawStep.run = s.run := by rw [drawStep_eq]
@[simp] theorem State.drawStep_swapCnt : s.drawStep.swapCnt = s.swapCnt := by rw [drawStep_eq]
@[simp] theorem State.drawStep_err : s.drawStep.err = s.err := by rw [drawStep_eq]
@[simp] theorem State.drawStep_errCode : s.drawStep.errCode = s.errCode := by rw [drawStep_eq]
@[simp] theorem State.drawStep_errInfo : s.drawStep.errInfo = s.errInfo := by rw [drawStep_eq]
@[simp] theorem State.drawStep_inputs : s.drawStep.inputs = s.inputs := by rw [drawStep_eq]

end

/-! ### The parameters -/

theorem CommandEffect.cfg {s t : State} {g : Grain} {i : Instr} (h : CommandEffect s g i t) : t.cfg = s.cfg := by
  cases h with
  | pixelDrawn => exact State.drawPixel_cfg ..
  | glyphDrawn => exact State.drawPixels_cfg ..
  | _ => rfl

theorem StepEffect.cfg {s t : State} (h : StepEffect s t) : t.cfg = s.cfg := by
  cases h with
  | ran rest g w i t hs he ht => exact ht.cfg
  | _ => simp

/-- Settles O54. -/
theorem parametersNeverChange : Obligations.ParametersNeverChange := fun _ _ h => (stepEffect_of_step h).cfg

/-! ### The stalled host -/

/-- Settles O45: with no agent named by the schedule, the sequencer or the ticker moves and takes no input. -/
theorem hostIsStalledDuringCommand : Obligations.HostIsStalledDuringCommand := by
  intro s t hbusy h hagent
  cases stepEffect_of_step h with
  | ticked rest hi =>
    rcases hi with rfl | hi
    · simp
    · simp [hi, agentNext] at hagent
  | reset rest hi => simp [hi, agentNext] at hagent
  | passed rest hi => simp [hi, agentNext] at hagent
  | completed => rfl
  | drew rest sc scan pending hi =>
    rcases hi with rfl | hi
    · simp
    · simp [hi, agentNext] at hagent
  | _ => contradiction

/-! ### After a fault -/

/-- Settles O47: with ERR = 1 no command runs, and no other move of an idle block touches what a command does. -/
theorem faultIsTerminalUntilReset : Obligations.FaultIsTerminalUntilReset := by
  intro s t he hs hreset h
  cases stepEffect_of_step h with
  | ticked => simp [he, hs]
  | reset rest hi => simp [hi, resetNext] at hreset
  | passed => simp [he, hs]
  | completed hwaiting => simp [hs] at hwaiting
  | drew rest sc scan pending hi hdrawing => simp [hs] at hdrawing
  | read => simp [he, hs]
  | wrote => simp [he, hs]
  | raisedIllegal rest w _ hok => simp [he] at hok
  | ran rest g w i t _ hok => simp [he] at hok
  | stored rest a b _ hi => simp [he, hs, hi]

/-! ### The pacing guarantee (R172) -/

theorem tickTrunc_toNat (c : Config) (v : Nat) : (tickTrunc c v).toNat = v % 2 ^ c.tickBits % 2 ^ 32 := by
  rw [tickTrunc, BitVec.toNat_ofNat]

theorem tickTrunc_le (c : Config) (v : Nat) : (tickTrunc c v).toNat ≤ v := by
  rw [tickTrunc_toNat]
  exact (Nat.mod_le ..).trans (Nat.mod_le ..)

theorem tickTrunc_lt (c : Config) (v : Nat) : (tickTrunc c v).toNat < 2 ^ c.tickBits := by
  rw [tickTrunc_toNat]
  exact (Nat.mod_le ..).trans_lt (Nat.mod_lt _ (Nat.two_pow_pos _))

/-- The records of a move cover what it adds to TICK. -/
def TickRecorded (s t : State) : Prop :=
  ∃ new, t.history = s.history ++ new ∧ t.tick.toNat ≤ s.tick.toNat + tickCount new

theorem TickRecorded.of_tick_eq {s t : State} {new : List Record} (hh : t.history = s.history ++ new) (ht : t.tick = s.tick) :
    TickRecorded s t := ⟨new, hh, by simp [ht]⟩

theorem TickRecorded.of_tick_zero {s t : State} {new : List Record} (hh : t.history = s.history ++ new) (ht : t.tick = 0) :
    TickRecorded s t := ⟨new, hh, by simp [ht]⟩

/-- Records older than `n` aside, the Tick records of a history that has grown are the old ones and the new ones. -/
theorem paced_of_tickRecorded {s t : State} {n : Nat} (h : TickRecorded s t) (hp : s.Paced n) : t.Paced n := by
  obtain ⟨new, hh, ht⟩ := h
  obtain ⟨hn, htick⟩ := hp
  have hcount : tickCount (t.history.drop n) = tickCount (s.history.drop n) + tickCount new := by
    rw [hh, List.drop_append_of_le_length hn, tickCount, List.count_append]
    rfl
  have hlength : s.history.length ≤ t.history.length := by simp [hh]
  exact ⟨by omega, by omega⟩

theorem tickRecorded_ticked (s : State) : TickRecorded s s.ticked := by
  cases hr : s.run with
  | false =>
    rw [State.ticked_of_stopped s hr]
    exact .of_tick_eq (List.append_nil _).symm rfl
  | true =>
    rw [State.ticked_of_run s hr]
    exact ⟨[.tick], rfl, tickTrunc_le ..⟩

theorem tickRecorded_drawStep (s : State) : TickRecorded s s.drawStep := by
  have hh : ∃ new, s.drawStep.history = s.history ++ new := by
    cases hs : s.seq with
    | idle => exact ⟨[], by simp [State.drawStep, hs]⟩
    | waiting => exact ⟨[], by simp [State.drawStep, hs]⟩
    | drawing sc scan pending =>
      rcases drawStep_cases hs with ⟨w, v, -, h⟩ | ⟨-, -, h⟩ | ⟨char, p, -, -, -, h⟩ | ⟨char, p, -, -, -, h⟩
      · exact ⟨[.memWrite w.1 w.2], by rw [h]; rfl⟩
      · exact ⟨[], by rw [h]; simp⟩
      · exact ⟨[], by rw [h]; simp⟩
      · exact ⟨[], by rw [h]; simp⟩
  obtain ⟨new, hh⟩ := hh
  exact .of_tick_eq hh (State.drawStep_tick s)

theorem drawPixels_history (sc : Screen) (s : State) (ps : List Nat) :
    (s.drawPixels sc ps).history = s.history ++ (ps.flatMap (pixelWrites s sc)).map fun w => .memWrite w.1 w.2 := by
  rw [drawPixels_eq, State.writeBytes_history]

theorem CommandEffect.tickRecorded {s t : State} {g : Grain} {i : Instr} (h : CommandEffect s g i t) : TickRecorded s t := by
  cases h with
  | faulted g i f => exact .of_tick_eq (State.raise_history ..) rfl
  | pixelDrawn => exact .of_tick_eq (drawPixel_history ..) (State.drawPixel_tick ..)
  | glyphDrawn => exact .of_tick_eq (drawPixels_history ..) (State.drawPixels_tick ..)
  | timerStarted => exact .of_tick_zero (List.append_nil _).symm rfl
  | waitCompleted => exact .of_tick_zero (State.completeWait_history s) rfl
  | _ => exact .of_tick_eq (List.append_nil _).symm rfl

/-- But for a host write to TICK, every step records what it adds to TICK. -/
theorem StepEffect.tickRecorded {s t : State} (h : StepEffect s t) (hw : writesTick s.cfg s.inputs = false) :
    TickRecorded s t := by
  cases h with
  | ticked rest => exact tickRecorded_ticked { s with inputs := rest }
  | reset => exact .of_tick_zero (List.append_nil _).symm rfl
  | passed => exact .of_tick_eq (List.append_nil _).symm rfl
  | completed => exact .of_tick_zero (State.completeWait_history s) rfl
  | drew rest => exact tickRecorded_drawStep { s with inputs := rest }
  | read => exact .of_tick_eq (State.record_history ..) rfl
  | wrote rest g r n v hs hi =>
    have hr : r ≠ .tick := by
      rintro rfl
      simp [hi, writesTick] at hw
    refine .of_tick_eq (new := [.regWrite (regOffset r) v]) ?_ ?_
    · simp
    · exact State.writeReg_tick_of_ne _ r v hr
  | raisedIllegal rest w =>
    exact .of_tick_eq (new := [.regWrite 0 w, .cmd w, .fault 1 w]) (by simp [Cause.code]) rfl
  | ran rest g w i t hs he ht =>
    obtain ⟨new, hh, htick⟩ := ht.tickRecorded
    exact ⟨.regWrite 0 w :: .cmd w :: new, by simpa using hh, by simpa [tickCount] using htick⟩
  | stored => exact .of_tick_eq (List.append_nil _).symm rfl

theorem CommandEffect.reached_of_swap {s t : State} {g : Grain} {i : Instr} (h : CommandEffect s g i t)
    (hswap : t.swapCnt ≠ s.swapCnt) : Reached s ∧ t.tick = 0 := by
  cases h with
  | waitCompleted g hr => exact ⟨hr, rfl⟩
  | pixelDrawn | glyphDrawn => simp at hswap
  | _ => exact absurd rfl hswap

/-- A swap is requested by the completion of an FPWAIT alone, with TICK at DELAY or past it. -/
theorem StepEffect.reached_of_swap {s t : State} (h : StepEffect s t) (hreset : resetNext s.inputs = false)
    (hswap : t.swapCnt ≠ s.swapCnt) : Reached s ∧ t.tick = 0 := by
  cases h with
  | completed hs hr => exact ⟨hr, rfl⟩
  | ran rest g w i t hs he ht => exact ht.reached_of_swap hswap
  | reset rest hi => simp [hi, resetNext] at hreset
  | _ => simp at hswap

/-- Settles O37: the step records what it adds to TICK, and a swap comes with TICK at DELAY. -/
theorem swapsAreAtLeastDelayTicksApart : Obligations.SwapsAreAtLeastDelayTicksApart := by
  refine ⟨fun s htick => ⟨le_rfl, by simp [htick]⟩, fun s t n _ hp hw h => ?_⟩
  have heffect := stepEffect_of_step h
  refine ⟨paced_of_tickRecorded (heffect.tickRecorded hw) hp, fun hreset hswap => ?_⟩
  obtain ⟨hreached, hzero⟩ := heffect.reached_of_swap hreset hswap
  obtain ⟨-, htick⟩ := hp
  exact ⟨hreached.trans htick, hzero⟩

end Sys2Proof.Machine
end

section
/-! The commands one by one (spec/40_pixel_writer.md, spec/42_frame_pacer.md): the bounds checks, the fault they raise, and the
commands that touch registers only. -/

namespace Sys2Proof.Machine

/-! ### The glyph's check and the pixel's (R123) -/

theorem inBoundsGlyph_iff {s : State} (hc : s.cfg.Wf) (sc : Screen) :
    InBoundsGlyph s sc ↔ s.posX.toNat + 8 ≤ s.cfg.width sc ∧ s.posY.toNat + 8 ≤ s.cfg.height sc := by
  obtain ⟨hw, hh⟩ := screenHoldsGlyph_of_wf hc sc
  rw [InBoundsGlyph]
  omega

theorem inBoundsPixel_of_glyph {s : State} {sc : Screen} (h : InBoundsGlyph s sc) {row col : Nat} (hrow : row < 8)
    (hcol : col < 8) : InBoundsPixel s sc row col := by
  obtain ⟨hx, hy⟩ := h
  rw [InBoundsPixel]
  omega

/-- Settles O14. -/
theorem glyphCheckCoversEveryPixel : Obligations.GlyphCheckCoversEveryPixel := by
  intro s sc hc
  refine ⟨?_, fun h row col hrow hcol => inBoundsPixel_of_glyph h hrow hcol, fun row col hrow hcol =>
    inBoundsPixel_iff hc sc hrow hcol⟩
  rw [InBoundsGlyph, InBoundsPixel]
  omega

/-! ### Out of bounds (spec/60_exceptions.md R232) -/

section
variable {s : State} {sc : Screen} {row col : BitVec 3} (hb : ¬ InBoundsPixel s sc row.toNat col.toNat)
include hb

theorem runCommand_pxaddr_of_not_inBounds (g : Grain) :
    runCommand g (.pxaddr sc row col) s = .next (s.raise .boundsFault (encode (.pxaddr sc row col))) := by
  rw [runCommand_eq_exec (by simp) (by simp)]
  exact if_neg hb

theorem runCommand_pxput_of_not_inBounds (g : Grain) :
    runCommand g (.pxput sc row col) s = .next (s.raise .boundsFault (encode (.pxput sc row col))) := by
  cases g with
  | whole => exact if_neg hb
  | stepwise => exact if_neg hb

end

theorem runCommand_glyph_of_not_inBounds {s : State} {sc : Screen} (hb : ¬ InBoundsGlyph s sc) (g : Grain) (char : Byte) :
    runCommand g (.glyph sc char) s = .next (s.raise .boundsFault (encode (.glyph sc char))) := by
  cases g with
  | whole => exact if_neg hb
  | stepwise => exact if_neg hb

/-- Settles O10: the check of each of the three commands. -/
theorem outOfBoundsRaisesBoundsFault : Obligations.OutOfBoundsRaisesBoundsFault := by
  rintro s g i (⟨sc, row, col, rfl, hb⟩ | ⟨sc, row, col, rfl, hb⟩ | ⟨sc, char, rfl, hb⟩)
  · exact runCommand_pxaddr_of_not_inBounds hb g
  · exact runCommand_pxput_of_not_inBounds hb g
  · exact runCommand_glyph_of_not_inBounds hb g char

/-! ### The commands that touch registers only -/

/-- Settles O7: 0 is the only word of opcode 0. -/
theorem nopChangesNothing : Obligations.NopChangesNothing := by
  refine ⟨rfl, fun s g => ⟨rfl, fun he => ?_, acceptCommand_of_err, fun he w hopc hw => ?_⟩⟩
  · rw [acceptCommand_of_command he (show decode 0 = .command .nop from decodeOfEncode .nop), runCommand_eq_exec (by simp) (by simp)]
    rfl
  · refine raisesIllegal_of_opcode he hopc fun i hi => ?_
    cases i with
    | nop => exact hw
    | _ => cases hi

/-- Settles O8: the word by its fields, the two outcomes by the check. -/
theorem pxaddrComputesOffset : Obligations.PxaddrComputesOffset := by
  intro s sc row col
  refine ⟨?_, fun hb => if_pos hb, fun hb => ?_, fun he g w hopc hw => ?_⟩
  · rw [BitVec.or_assoc (_ ||| _)]
    cases sc with
    | bottom => rfl
    | top => rfl
  · exact runCommand_pxaddr_of_not_inBounds (g := .whole) hb
  · refine raisesIllegal_of_opcode he hopc fun i hi => ?_
    cases i with
    | pxaddr sc' row' col' => exact hw sc' row' col'
    | _ => cases hi

/-- Settles O27. -/
theorem fprateSetsRateOnly : Obligations.FprateSetsRateOnly := by
  refine fun s rate => ⟨rfl, exec_fprate rate s, fun he g w hopc hw => ?_⟩
  refine raisesIllegal_of_opcode he hopc fun i hi => ?_
  cases i with
  | fprate rate' => exact hw rate'
  | _ => cases hi

theorem exec_fpstart_of_rate_eq_zero {s : State} (h : s.rate = 0) :
    exec .fpstart s = .next (s.raise .rateZero (encode .fpstart)) :=
  if_pos h

/-- Settles O28. -/
theorem fpstartLatchesDelay : Obligations.FpstartLatchesDelay := by
  refine fun s => ⟨rfl, exec_fpstart_of_rate_ne_zero, exec_fpstart_of_rate_eq_zero, fun he g w hopc hw => ?_⟩
  refine raisesIllegal_of_opcode he hopc fun i hi => ?_
  cases i with
  | fpstart => exact hw
  | _ => cases hi

/-- Settles O30. -/
theorem fpstopClearsRunOnly : Obligations.FpstopClearsRunOnly := by
  refine fun s g => ⟨rfl, rfl, acceptCommand_of_err, fun he w hopc hw => ?_⟩
  refine raisesIllegal_of_opcode he hopc fun i hi => ?_
  cases i with
  | fpstop => exact hw
  | _ => cases hi

/-! ### What each command writes (spec/10_state.md R25) -/

/-- Settles O51: in each case of a command's effect, the fields it names. -/
theorem commandsWriteOnlyTheirState : Obligations.CommandsWriteOnlyTheirState := by
  intro i s t h
  cases commandEffect_of_runCommand (g := .whole) h with
  | _ => simp

end Sys2Proof.Machine
end

section
/-! The invariant of the machine: the scan of a GLYPH part way, and each part of the invariant through every move
(spec/10_state.md R35, R42, R43; spec/20_memory.md R71; spec/60_exceptions.md R242). -/

namespace Sys2Proof.Machine

/-! ### The scan counter's path (spec/10_state.md R31) -/

/-- The number of positions before this one. -/
def Scan.number (p : Scan) : Nat := 8 * p.row.toNat + p.col.toNat

theorem Scan.number_next {p q : Scan} (h : p.next = some q) : q.number = p.number + 1 := by
  have hall : ∀ row col : BitVec 3, ∀ q ∈ Scan.next ⟨row, col⟩, q.number = Scan.number ⟨row, col⟩ + 1 := by decide
  exact hall p.row p.col q h

theorem Scan.number_lt (p : Scan) : p.number < 64 := by
  rw [Scan.number]
  omega

/-- From a position on there are as many positions as the scan has left, whatever the bound beyond that. -/
theorem scanFrom_succ {n : Nat} {p : Scan} (h : 64 - p.number ≤ n) : scanFrom (n + 1) p = scanFrom n p := by
  induction n generalizing p with
  | zero => exact absurd p.number_lt (by omega)
  | succ n ih =>
    rw [scanFrom, scanFrom]
    cases hq : p.next with
    | none => rfl
    | some q =>
      have hnumber := Scan.number_next hq
      exact congrArg (p :: ·) (ih (by omega))

theorem scanFrom_of_next_none {p : Scan} (h : p.next = none) : scanFrom 64 p = [p] := by
  rw [scanFrom, h]

theorem scanFrom_of_next {p q : Scan} (h : p.next = some q) : scanFrom 64 p = p :: scanFrom 64 q := by
  have hnumber := Scan.number_next h
  rw [scanFrom, h, scanFrom_succ (n := 63) (by omega)]

/-! ### What a drawing command part way will write -/

/-- The positions still to be examined whose bit is set. -/
def setBitsLeft (c : Config) : Option (Byte × Scan) → List Scan
  | none => []
  | some (char, p) => (scanFrom 64 p).filter (scanBit c char)

theorem setBitsLeft_some (c : Config) (char : Byte) (p : Scan) :
    setBitsLeft c (some (char, p)) =
      if scanBit c char p then p :: setBitsLeft c (scanRest char p) else setBitsLeft c (scanRest char p) := by
  cases hq : p.next with
  | none => simp [setBitsLeft, scanRest, scanFrom_of_next_none hq, hq, List.filter_cons]
  | some q => simp [setBitsLeft, scanRest, scanFrom_of_next hq, hq, List.filter_cons]

/-- The bytes of the pixels still to be drawn. -/
def restWrites (s : State) (sc : Screen) (scan : Option (Byte × Scan)) : List ByteWrite :=
  (setBitsLeft s.cfg scan).flatMap fun p => pixelWrites s sc (scanOffset s sc p)

theorem restWrites_some (s : State) (sc : Screen) (char : Byte) (p : Scan) :
    restWrites s sc (some (char, p)) = scanWritesFrom s sc char p := rfl

theorem drawingOk_of_idle {s : State} (h : s.seq = .idle) : drawingOk s = true := by
  simp [drawingOk, h]

theorem drawingOk_of_waiting {s : State} (h : s.seq = .waiting) : drawingOk s = true := by
  simp [drawingOk, h]

theorem drawingOk_drawing_iff {s : State} {sc : Screen} {scan : Option (Byte × Scan)} {pending : List ByteWrite}
    (h : s.seq = .drawing sc scan pending) :
    drawingOk s = true ↔
      (scan ≠ none → InBoundsGlyph s sc) ∧ hitsWindow s.cfg (pending ++ restWrites s sc scan) = false := by
  cases scan with
  | none => simp [drawingOk, h, restWrites, setBitsLeft]
  | some cp =>
    obtain ⟨char, p⟩ := cp
    simp [drawingOk, h, restWrites_some]

theorem hitsWindow_append_eq_false_iff {c : Config} {v w : List ByteWrite} :
    hitsWindow c (v ++ w) = false ↔ hitsWindow c v = false ∧ hitsWindow c w = false := by
  simp [hitsWindow]

/-! ### The parts of the invariant -/

theorem State.memoryOk_writeBytes {s : State} (h : s.MemoryOk) {ws : List ByteWrite} (hw : hitsWindow s.cfg ws = false) :
    (s.writeBytes ws).MemoryOk := by
  obtain ⟨hwf, hcells⟩ := h
  refine ⟨State.writeBytes_wf hwf ws, fun x hx => ?_⟩
  rw [State.writeBytes_cfg]
  rcases State.mem_writeBytes hx with hx | ⟨w, hmem, haddr, hbus⟩
  · exact hcells x hx
  · have hclear : ¬ InWindow s.cfg w.1 := hitsWindow_eq_false_iff.1 hw w hmem
    exact ⟨haddr ▸ hclear, hbus⟩

theorem State.tickOk_zero {s : State} (h : s.tick = 0) : s.TickOk := by
  rw [State.TickOk, h]
  exact Nat.two_pow_pos _

theorem State.delayOk_startTimer {s : State} (hc : s.cfg.Wf) : s.startTimer.DelayOk := by
  rw [State.DelayOk, startTimer_delay_toNat hc]
  exact pacerDelay_le ..

/-- The framebuffer of a screen of 8 by 8 pixels or more holds the first pixel. -/
theorem State.offsetOk_zero {s : State} (hc : s.cfg.Wf) (h : s.offset = 0) : s.OffsetOk := by
  obtain ⟨hw, hh⟩ := screenHoldsGlyph_of_wf hc .bottom
  have harea : 8 * 8 ≤ s.cfg.width .bottom * s.cfg.height .bottom := Nat.mul_le_mul hw hh
  have hoffset : s.offset.toNat = 0 := by simp [h]
  rw [State.OffsetOk, Config.frameBytes, hoffset, Nat.mul_assoc]
  exact ⟨rfl, .inl (by omega)⟩

theorem State.offsetOk_cell {s t : State} {sc : Screen} {row col : Nat} (hc : s.cfg.Wf) (hrow : row < 8) (hcol : col < 8)
    (hb : InBoundsPixel s sc row col) (hcfg : t.cfg = s.cfg) (ht : t.offset = BitVec.ofNat 32 (cellOffset s sc row col)) :
    t.OffsetOk := by
  have hend := cellOffset_add_three_le hc hrow hcol hb
  have hfit : s.cfg.frameBytes sc ≤ 2 ^ 32 := frameFits_of_wf hc sc
  have hoffset : t.offset.toNat = cellOffset s sc row col := by
    rw [ht, BitVec.toNat_ofNat, Nat.mod_eq_of_lt (by omega)]
  rw [State.OffsetOk, hoffset, hcfg]
  refine ⟨by rw [cellOffset_eq, Nat.mul_mod_right], ?_⟩
  cases sc with
  | bottom => exact .inl (by omega)
  | top => exact .inr (by omega)

theorem State.faultOk_raise (s : State) (f : Cause) (w : Word) : (s.raise f w).FaultOk := by
  refine ⟨fun _ => ?_, nofun⟩
  cases f with
  | illegalCommand => exact .inl rfl
  | boundsFault => exact .inr (.inl rfl)
  | rateZero => exact .inr (.inr rfl)

theorem State.seqOk_of_idle {s : State} (h : s.seq = .idle) : s.SeqOk := ⟨fun _ => h, drawingOk_of_idle h⟩

/-! ### The invariant through each move -/

/-- Pixels drawn leave OFFSET at one of them, or as it was. -/
theorem drawPixels_offset (sc : Screen) (s : State) (ps : List Nat) :
    (s.drawPixels sc ps).offset = s.offset ∨ ∃ p ∈ ps, (s.drawPixels sc ps).offset = BitVec.ofNat 32 p := by
  rw [drawPixels_eq]
  cases hp : ps.getLast? with
  | none => exact .inl rfl
  | some p => exact .inr ⟨p, List.mem_of_getLast? hp, rfl⟩

theorem drawPixels_memory (sc : Screen) (s : State) (ps : List Nat) :
    (s.drawPixels sc ps).memory = (s.writeBytes (ps.flatMap (pixelWrites s sc))).memory := by
  rw [drawPixels_eq]

theorem glyphWrites_eq (s : State) (sc : Screen) (char : Byte) :
    glyphWrites s sc char = ((setBits s.cfg char).map (scanOffset s sc)).flatMap (pixelWrites s sc) := by
  rw [glyphWrites, List.flatMap_map]

/-- What a state that differs in what drawing touches needs for the invariant. -/
theorem State.Inv.of_drawn {s t : State} (h : s.Inv) (hcfg : t.cfg = s.cfg) (htick : t.tick = s.tick)
    (hdelay : t.delay = s.delay) (herr : t.err = s.err) (hcode : t.errCode = s.errCode) (hinfo : t.errInfo = s.errInfo)
    (hm : t.MemoryOk) (ho : t.OffsetOk) (hs : t.SeqOk) : t.Inv := by
  obtain ⟨hc, -, ht, hd, -, hf, -⟩ := h
  refine ⟨hcfg ▸ hc, hm, ?_, ?_, ho, ?_, hs⟩
  · rwa [State.TickOk, htick, hcfg]
  · rwa [State.DelayOk, hdelay, hcfg]
  · rwa [State.FaultOk, herr, hcode, hinfo]

theorem State.Inv.ticked {s : State} (h : s.Inv) : s.ticked.Inv := by
  cases hr : s.run with
  | false => rwa [State.ticked_of_stopped s hr]
  | true =>
    rw [State.ticked_of_run s hr]
    obtain ⟨hc, hm, -, hd, ho, hf, hs⟩ := h
    exact ⟨hc, hm, tickTrunc_lt .., hd, ho, hf, hs⟩

theorem State.Inv.resetBlock {s : State} (hc : s.cfg.Wf) (hm : s.MemoryOk) : s.resetBlock.Inv :=
  ⟨hc, hm, State.tickOk_zero rfl, Nat.zero_le _, State.offsetOk_zero hc rfl, ⟨nofun, fun _ => ⟨rfl, rfl⟩⟩,
    State.seqOk_of_idle rfl⟩

theorem State.Inv.completeWait {s : State} (h : s.Inv) : s.completeWait.Inv := by
  obtain ⟨hc, hm, -, hd, ho, hf, -⟩ := h
  exact ⟨hc, hm, State.tickOk_zero rfl, hd, ho, hf, State.seqOk_of_idle rfl⟩

theorem State.Inv.raise {s : State} (h : s.Inv) (hs : s.seq = .idle) (f : Cause) (w : Word) : (s.raise f w).Inv := by
  obtain ⟨hc, hm, ht, hd, ho, -, -⟩ := h
  exact ⟨hc, hm, ht, hd, ho, State.faultOk_raise s f w, State.seqOk_of_idle hs⟩

theorem State.Inv.writeReg {s : State} (h : s.Inv) (hs : s.seq = .idle) (r : Reg) (v : Word) : (s.writeReg r v).Inv := by
  obtain ⟨hc, hm, ht, hd, ho, hf, -⟩ := h
  have hseq : (s.writeReg r v).SeqOk := State.seqOk_of_idle (by simpa using hs)
  cases r with
  | tick => exact ⟨hc, hm, tickTrunc_lt .., hd, ho, hf, hseq⟩
  | _ => exact ⟨hc, hm, ht, hd, ho, hf, hseq⟩

theorem State.Inv.drawStep {s : State} (h : s.Inv) {sc : Screen} {scan : Option (Byte × Scan)} {pending : List ByteWrite}
    (hs : s.seq = .drawing sc scan pending) : s.drawStep.Inv := by
  obtain ⟨hc, hm, ht, hd, ho, hf, herr, hok⟩ := h
  obtain ⟨hextent, hwindow⟩ := (drawingOk_drawing_iff hs).1 hok
  have hnoerr : s.err = true → ∀ q : Sequencer, q = .idle := fun he => by simp [herr he] at hs
  rcases drawStep_cases hs with ⟨w, v, rfl, h⟩ | ⟨-, -, h⟩ | ⟨char, p, rfl, rfl, hb, h⟩ | ⟨char, p, rfl, rfl, hb, h⟩
  · rw [List.cons_append, ← List.singleton_append, hitsWindow_append_eq_false_iff] at hwindow
    obtain ⟨hbyte, hlater⟩ := hwindow
    rw [h]
    exact ⟨hc, State.memoryOk_writeBytes hm hbyte, ht, hd, ho, hf, fun he => hnoerr he _,
      (drawingOk_drawing_iff rfl).2 ⟨hextent, hlater⟩⟩
  · rw [h]
    exact ⟨hc, hm, ht, hd, ho, hf, State.seqOk_of_idle rfl⟩
  · have hin : InBoundsGlyph s sc := hextent nofun
    rw [List.nil_append, restWrites, setBitsLeft_some, if_pos hb, List.flatMap_cons] at hwindow
    rw [h]
    exact ⟨hc, hm, ht, hd,
      State.offsetOk_cell hc p.row.isLt p.col.isLt (inBoundsPixel_of_glyph hin p.row.isLt p.col.isLt) rfl rfl, hf,
      fun he => hnoerr he _, (drawingOk_drawing_iff rfl).2 ⟨fun _ => hin, hwindow⟩⟩
  · have hin : InBoundsGlyph s sc := hextent nofun
    rw [List.nil_append, restWrites, setBitsLeft_some, hb] at hwindow
    rw [h]
    exact ⟨hc, hm, ht, hd, ho, hf, fun he => hnoerr he _, (drawingOk_drawing_iff rfl).2 ⟨fun _ => hin, hwindow⟩⟩

/-- A command accepted by an idle block without a fault keeps the invariant. -/
theorem CommandEffect.inv {s t : State} {g : Grain} {i : Instr} (h : CommandEffect s g i t) (hi : s.Inv)
    (hs : s.seq = .idle) (he : s.err = false) : t.Inv := by
  have hinv := hi
  obtain ⟨hc, hm, ht, hd, ho, hf, hseq⟩ := hi
  have hnoerr : s.err = true → ∀ q : Sequencer, q = .idle := by simp [he]
  cases h with
  | nothing => exact hinv
  | faulted g i f => exact hinv.raise hs f _
  | latched g sc row col hb =>
    exact ⟨hc, hm, ht, hd, State.offsetOk_cell hc row.isLt col.isLt hb rfl rfl, hf, hseq⟩
  | pixelDrawn sc row col hb hw =>
    refine hinv.of_drawn (by simp) (by simp) (by simp) (by simp) (by simp) (by simp) ?_
      (State.offsetOk_cell hc row.isLt col.isLt hb (by simp) (by simp)) (State.seqOk_of_idle (by simpa using hs))
    simpa [State.MemoryOk, drawPixel_memory] using State.memoryOk_writeBytes hm hw
  | pixelBegun sc row col hb hw =>
    exact ⟨hc, hm, ht, hd, State.offsetOk_cell hc row.isLt col.isLt hb rfl rfl, hf, fun he => hnoerr he _,
      (drawingOk_drawing_iff rfl).2 ⟨nofun, by simpa [restWrites, setBitsLeft] using hw⟩⟩
  | glyphDrawn sc char hb hw =>
    rw [glyphWrites_eq] at hw
    refine hinv.of_drawn (by simp) (by simp) (by simp) (by simp) (by simp) (by simp) ?_ ?_
      (State.seqOk_of_idle (by simpa using hs))
    · simpa [State.MemoryOk, drawPixels_memory] using State.memoryOk_writeBytes hm hw
    · rcases drawPixels_offset sc s ((setBits s.cfg char).map (scanOffset s sc)) with hsame | ⟨n, hn, hlast⟩
      · simpa [State.OffsetOk, hsame] using ho
      · obtain ⟨p, -, rfl⟩ := List.mem_map.1 hn
        exact State.offsetOk_cell hc p.row.isLt p.col.isLt (inBoundsPixel_of_glyph hb p.row.isLt p.col.isLt) (by simp) hlast
  | glyphBegun sc char hb hw =>
    exact ⟨hc, hm, ht, hd, ho, hf, fun he => hnoerr he _,
      (drawingOk_drawing_iff rfl).2 ⟨fun _ => hb, by rwa [List.nil_append]⟩⟩
  | rateSet => exact hinv
  | timerStarted => exact ⟨hc, hm, State.tickOk_zero rfl, State.delayOk_startTimer hc, ho, hf, hseq⟩
  | waitCompleted => exact hinv.completeWait
  | waitHeld => exact ⟨hc, hm, ht, hd, ho, hf, fun he => hnoerr he _, drawingOk_of_waiting rfl⟩
  | timerStopped => exact hinv

/-- Every move keeps the invariant; the inputs and the history have no part in it. -/
theorem StepEffect.inv {s t : State} (h : StepEffect s t) (hinv : s.Inv) : t.Inv := by
  cases h with
  | ticked rest => exact State.Inv.ticked (s := { s with inputs := rest }) hinv
  | reset rest =>
    obtain ⟨hc, hm, -⟩ := hinv
    exact State.Inv.resetBlock (s := { s with inputs := rest }) hc hm
  | passed => exact hinv
  | completed => exact hinv.completeWait
  | drew rest sc scan pending hi hs => exact State.Inv.drawStep (s := { s with inputs := rest }) hinv hs
  | read => exact hinv
  | wrote rest g r n v hs => exact State.Inv.writeReg (s := { s with inputs := rest }) hinv hs r v
  | raisedIllegal rest w hs =>
    exact State.Inv.raise (s := (({ s with inputs := rest } : State).record (.regWrite 0 w)).record (.cmd w)) hinv hs _ w
  | ran rest g w i t hs he ht => exact ht.inv hinv hs he
  | stored rest a b hs hi hw =>
    obtain ⟨hc, hm, ht, hd, ho, hf, hseq⟩ := hinv
    have hclear : hitsWindow s.cfg [(a, b)] = false := by simpa [hitsWindow] using hw
    exact ⟨hc, State.memoryOk_writeBytes hm hclear, ht, hd, ho, hf, hseq⟩

/-- Settles O50: every move keeps the invariant. -/
theorem everyStepKeepsTheInvariant : Obligations.EveryStepKeepsTheInvariant := fun _ _ hinv h =>
  (stepEffect_of_step h).inv hinv

theorem inv_resetWith {c : Config} (hc : c.Wf) : (State.resetWith c).Inv :=
  State.Inv.resetBlock (s := State.resetWith c) hc ⟨⟨.nil, nofun⟩, nofun⟩

theorem length_testGlyph (n : Nat) : (testGlyph n).length = 8 := by
  unfold testGlyph
  split_ifs <;> rfl

theorem board_wf : board.Wf := by
  have hfont : testFont.length = 2048 := by
    rw [testFont, List.length_flatMap, funext length_testGlyph, List.map_const', List.sum_replicate, List.length_range]
    rfl
  exact ⟨by decide, by decide, by decide, by decide, by decide, by decide, by decide, by decide, hfont⟩

/-- Settles O49: memory is empty after reset, and every register is at its reset value. -/
theorem invariantHoldsAtReset : Obligations.InvariantHoldsAtReset :=
  ⟨fun _ hc => inv_resetWith hc, inv_resetWith board_wf⟩

end Sys2Proof.Machine
end

section
/-! Where a drawing command writes (spec/20_memory.md R70, R71; spec/40_pixel_writer.md R127; spec/41_glyph_unpacker.md R145): the
addresses of a glyph's bytes, that no two are equal, and what every byte of memory reads as afterwards. -/

namespace Sys2Proof.Machine

/-! ### The positions of a glyph -/

/-- The position of the scan counter at a row and a column. -/
def scanAt (r k : Nat) : Scan := ⟨BitVec.ofNat 3 r, BitVec.ofNat 3 k⟩

theorem scanAt_row {r : Nat} (hr : r < 8) (k : Nat) : (scanAt r k).row.toNat = r := by
  rw [scanAt, BitVec.toNat_ofNat, Nat.mod_eq_of_lt hr]

theorem scanAt_col (r : Nat) {k : Nat} (hk : k < 8) : (scanAt r k).col.toNat = k := by
  rw [scanAt, BitVec.toNat_ofNat, Nat.mod_eq_of_lt hk]

theorem scanBit_scanAt (c : Config) (char : Byte) {r k : Nat} (hr : r < 8) (hk : k < 8) :
    scanBit c char (scanAt r k) = glyphBit c char r k := by
  rw [scanBit, scanAt_row hr, scanAt_col r hk]

theorem scanOffset_scanAt (s : State) (sc : Screen) {r k : Nat} (hr : r < 8) (hk : k < 8) :
    scanOffset s sc (scanAt r k) = cellOffset s sc r k := by
  rw [scanOffset, scanAt_row hr, scanAt_col r hk]

/-- The scan goes row by row, and column by column in each. -/
theorem scanOrder_eq_rows : scanOrder = (List.range 8).flatMap fun r => (List.range 8).map fun k => scanAt r k := by
  decide

theorem mem_scanOrder (p : Scan) : p ∈ scanOrder := by
  have hp : scanAt p.row.toNat p.col.toNat = p := by simp [scanAt]
  rw [scanOrder_eq_rows, ← hp]
  exact List.mem_flatMap.2 ⟨p.row.toNat, List.mem_range.2 p.row.isLt,
    List.mem_map.2 ⟨p.col.toNat, List.mem_range.2 p.col.isLt, rfl⟩⟩

theorem scanOrder_sorted : scanOrder.Pairwise fun p q => p.number < q.number := by decide

theorem mem_setBits_iff {c : Config} {char : Byte} {p : Scan} : p ∈ setBits c char ↔ scanBit c char p = true := by
  simp [setBits, mem_scanOrder]

theorem setBits_sorted (c : Config) (char : Byte) : (setBits c char).Pairwise fun p q => p.number < q.number :=
  scanOrder_sorted.filter _

/-! ### The addresses of a pixel and of a glyph -/

/-- R122 (a) with R121: the document's formula, and the one by the pixel's number. -/
theorem byteAddr_cellOffset (s : State) (sc : Screen) (r k j : Nat) :
    byteAddr (s.fbdraw sc) (cellOffset s sc r k) j = s.fbdraw sc + BitVec.ofNat 32
      (3 * ((s.posX.toNat + k) * s.cfg.height sc + (s.cfg.height sc - 1 - s.posY.toNat - r)) + j) := by
  rw [byteAddr, cellOffset_eq, pixelNumber, Nat.sub_sub _ s.posY.toNat]

/-- The three addresses of a pixel differ, also where they wrap modulo 2^32. -/
theorem byteAddr_byte_inj {fb : Word} {p j k : Nat} (hj : j < 3) (hk : k < 3) (h : byteAddr fb p j = byteAddr fb p k) :
    j = k := by
  rw [byteAddr, byteAddr, BitVec.add_right_inj, ← BitVec.toNat_inj, BitVec.toNat_ofNat, BitVec.toNat_ofNat] at h
  omega

theorem pixelWrites_addr_pairwise_ne (s : State) (sc : Screen) (p : Nat) :
    (pixelWrites s sc p).Pairwise fun v w => v.1 ≠ w.1 := by
  have hne {j k : Nat} (hj : j < 3) (hk : k < 3) (hjk : j ≠ k) :
      byteAddr (s.fbdraw sc) p j ≠ byteAddr (s.fbdraw sc) p k := fun h => hjk (byteAddr_byte_inj hj hk h)
  simp [pixelWrites_eq, hne]

/-- Each of a pixel's three addresses is written. -/
theorem exists_mem_pixelWrites (s : State) (sc : Screen) (p : Nat) {k : Nat} (hk : k < 3) :
    ∃ w ∈ pixelWrites s sc p, w.1 = byteAddr (s.fbdraw sc) p k := by
  rw [pixelWrites_eq]
  obtain rfl | rfl | rfl : k = 0 ∨ k = 1 ∨ k = 2 := by omega
  · simp
  · simp
  · simp

/-- R145: the addresses of a glyph in bounds differ wherever row, column or byte do. -/
theorem byteAddr_cell_inj {s : State} {sc : Screen} (hc : s.cfg.Wf) (hb : InBoundsGlyph s sc) (fb : Word)
    {r k j r' k' j' : Nat} (hr : r < 8) (hk : k < 8) (hj : j < 3) (hr' : r' < 8) (hk' : k' < 8) (hj' : j' < 3)
    (h : byteAddr fb (cellOffset s sc r k) j = byteAddr fb (cellOffset s sc r' k') j') : r = r' ∧ k = k' ∧ j = j' := by
  have hcell : r = r' ∧ k = k' := by
    by_contra hne
    refine byteAddr_ne_of_pixel_ne hc rfl hr' hk' hr hk (inBoundsPixel_of_glyph hb hr' hk')
      (inBoundsPixel_of_glyph hb hr hk) ?_ fb hj hj' h
    simp only [ne_eq, Prod.mk.injEq, Nat.add_left_cancel_iff]
    exact fun ⟨hcol, hrow⟩ => hne ⟨hrow, hcol⟩
  obtain ⟨rfl, rfl⟩ := hcell
  exact ⟨rfl, rfl, byteAddr_byte_inj hj hj' h⟩

/-- A glyph's writes are those of the pixels of its set bits. -/
theorem mem_glyphWrites_iff {s : State} {sc : Screen} {char : Byte} {w : ByteWrite} :
    w ∈ glyphWrites s sc char ↔
      ∃ r k, r < 8 ∧ k < 8 ∧ glyphBit s.cfg char r k = true ∧ w ∈ pixelWrites s sc (cellOffset s sc r k) := by
  simp only [glyphWrites, List.mem_flatMap, mem_setBits_iff]
  constructor
  · rintro ⟨p, hp, hw⟩
    exact ⟨p.row.toNat, p.col.toNat, p.row.isLt, p.col.isLt, hp, hw⟩
  · rintro ⟨r, k, hr, hk, hbit, hw⟩
    exact ⟨scanAt r k, (scanBit_scanAt _ _ hr hk).trans hbit, by rwa [scanOffset_scanAt s sc hr hk]⟩

theorem addr_of_mem_glyphWrites {s : State} {sc : Screen} {char : Byte} {w : ByteWrite} (hw : w ∈ glyphWrites s sc char) :
    ∃ r k j, r < 8 ∧ k < 8 ∧ j < 3 ∧ glyphBit s.cfg char r k = true ∧
      w.1 = byteAddr (s.fbdraw sc) (cellOffset s sc r k) j := by
  obtain ⟨r, k, hr, hk, hbit, hw⟩ := mem_glyphWrites_iff.1 hw
  obtain ⟨j, hj, haddr⟩ := addr_of_mem_pixelWrites hw
  exact ⟨r, k, j, hr, hk, hj, hbit, haddr⟩

theorem glyphWrites_addr_pairwise_ne {s : State} {sc : Screen} (hc : s.cfg.Wf) (hb : InBoundsGlyph s sc) (char : Byte) :
    (glyphWrites s sc char).Pairwise fun v w => v.1 ≠ w.1 := by
  refine List.pairwise_flatMap.2 ⟨fun p _ => pixelWrites_addr_pairwise_ne s sc _,
    (setBits_sorted s.cfg char).imp fun {p q} hlt v hv w hw heq => ?_⟩
  obtain ⟨j, hj, hvaddr⟩ := addr_of_mem_pixelWrites hv
  obtain ⟨j', hj', hwaddr⟩ := addr_of_mem_pixelWrites hw
  obtain ⟨hrow, hcol, -⟩ := byteAddr_cell_inj hc hb (s.fbdraw sc) p.row.isLt p.col.isLt hj q.row.isLt q.col.isLt hj'
    (hvaddr.symm.trans (heq.trans hwaddr))
  rw [Scan.number, Scan.number, hrow, hcol] at hlt
  exact absurd hlt (lt_irrefl _)

/-! ### PXPUT (R127) -/

theorem readByte_drawPixel_of_mem {s : State} {sc : Screen} {p : Nat} {w : ByteWrite} (hw : w ∈ pixelWrites s sc p)
    (hm : s.cfg.hasMemory w.1.toNat = true) : (s.drawPixel sc p).readByte w.1 = some w.2 := by
  rw [State.readByte_drawPixel]
  exact State.readByte_writeBytes_of_mem s _ w hw hm (pixelWrites_addr_pairwise_ne s sc p)

/-- Settles O9: the next state is the pixel drawn. -/
theorem pxputWritesOnePixel : Obligations.PxputWritesOnePixel := by
  intro s sc row col hb p a hclear
  have hread (w : ByteWrite) (hw : w ∈ pixelWrites s sc p) (hm : s.cfg.hasMemory w.1.toNat = true) :
      (s.drawPixel sc p).readByte w.1 = some w.2 := readByte_drawPixel_of_mem hw hm
  refine ⟨s.drawPixel sc p, exec_pxput_of_inBounds hb hclear, ?_, hread (a 0, s.color.extractLsb' 16 8) ?_,
    hread (a 1, s.color.extractLsb' 8 8) ?_, hread (a 2, s.color.extractLsb' 0 8) ?_, fun b hb => ?_⟩
  · have hhistory := drawPixel_history sc s p
    rw [pixelWrites_eq] at hhistory
    rw [drawPixel_eq, hhistory]
    rfl
  · simp [pixelWrites_eq, a, byteAddr]
  · simp [pixelWrites_eq, a, byteAddr]
  · simp [pixelWrites_eq, a, byteAddr]
  · rw [State.readByte_drawPixel]
    refine State.readByte_writeBytes_of_not_mem s _ b (hb.imp_left fun hne w hw heq => ?_)
    obtain ⟨k, hk, haddr⟩ := addr_of_mem_pixelWrites hw
    exact hne k hk (heq.trans haddr)

/-! ### The block's own window (spec/20_memory.md R71) -/

theorem hitsWindow_of_mem {c : Config} {ws : List ByteWrite} {w : ByteWrite} (hw : w ∈ ws) (hin : InWindow c w.1) :
    hitsWindow c ws = true :=
  List.any_eq_true.2 ⟨w, hw, decide_eq_true hin⟩

theorem runCommand_pxput_of_hitsWindow {s : State} {sc : Screen} {row col : BitVec 3}
    (hb : InBoundsPixel s sc row.toNat col.toNat)
    (hw : hitsWindow s.cfg (pixelWrites s sc (cellOffset s sc row.toNat col.toNat)) = true) (g : Grain) :
    runCommand g (.pxput sc row col) s = .refused .windowOverlap := by
  cases g with
  | whole => exact (if_pos hb).trans (if_pos hw)
  | stepwise => exact (if_pos hb).trans (if_pos hw)

theorem runCommand_glyph_of_hitsWindow {s : State} {sc : Screen} {char : Byte} (hb : InBoundsGlyph s sc)
    (hw : hitsWindow s.cfg (glyphWrites s sc char) = true) (g : Grain) :
    runCommand g (.glyph sc char) s = .refused .windowOverlap := by
  cases g with
  | whole => exact (if_pos hb).trans (if_pos hw)
  | stepwise => exact (if_pos hb).trans (if_pos hw)

/-- Settles O11: the address in the window is that of a byte the command would write. -/
theorem drawingIntoWindowIsRefused : Obligations.DrawingIntoWindowIsRefused := by
  intro s g sc
  constructor
  · rintro row col hb ⟨k, hk, hin⟩
    obtain ⟨w, hw, haddr⟩ := exists_mem_pixelWrites s sc (cellOffset s sc row.toNat col.toNat) hk
    exact runCommand_pxput_of_hitsWindow hb (hitsWindow_of_mem hw (haddr ▸ hin)) g
  · rintro char hb ⟨r, k, j, hr, hk, hj, hbit, hin⟩
    obtain ⟨w, hw, haddr⟩ := exists_mem_pixelWrites s sc (cellOffset s sc r k) hj
    exact runCommand_glyph_of_hitsWindow hb
      (hitsWindow_of_mem (mem_glyphWrites_iff.2 ⟨r, k, hr, hk, hbit, hw⟩) (haddr ▸ hin)) g

/-! ### GLYPH (R145) -/

theorem State.writeBytes_eq (s : State) (ws : List ByteWrite) :
    s.writeBytes ws = { s with memory := (s.writeBytes ws).memory, history := (s.writeBytes ws).history } := by
  induction ws generalizing s with
  | nil => rfl
  | cons w ws ih =>
    rw [State.writeBytes_cons, ih]
    rfl

/-- Drawing pixels changes OFFSET, memory and the history. -/
theorem drawPixels_frame (sc : Screen) (s : State) (ps : List Nat) :
    s.drawPixels sc ps = { s with
      offset := (s.drawPixels sc ps).offset, memory := (s.drawPixels sc ps).memory
      history := (s.drawPixels sc ps).history } := by
  rw [drawPixels_eq, State.writeBytes_eq]

theorem readByte_drawGlyph (s : State) (sc : Screen) (char : Byte) (a : Word) :
    (s.drawPixels sc ((setBits s.cfg char).map (scanOffset s sc))).readByte a =
      (s.writeBytes (glyphWrites s sc char)).readByte a :=
  State.readByte_congr (by rw [drawPixels_memory, glyphWrites_eq]) a

/-- Settles O17: the glyph's bytes are written each at its own address. -/
theorem glyphWritesExactlyItsSetBits : Obligations.GlyphWritesExactlyItsSetBits := by
  intro s sc char hc hb bit a hclear
  have hbit (r k : Nat) : bit r k = glyphBit s.cfg char r k := (glyphBit_eq ..).symm
  have haddr (r k j : Nat) : a r k j = byteAddr (s.fbdraw sc) (cellOffset s sc r k) j := (byteAddr_cellOffset ..).symm
  simp only [hbit, haddr] at hclear ⊢
  have hwindow : hitsWindow s.cfg (glyphWrites s sc char) = false := hitsWindow_eq_false_iff.2 fun w hw => by
    obtain ⟨r, k, j, hr, hk, hj, hset, haddr⟩ := addr_of_mem_glyphWrites hw
    exact haddr ▸ hclear r k j hr hk hj hset
  refine ⟨_, exec_glyph_of_inBounds hb hwindow, drawPixels_frame .., fun r k hr hk hset => ?_, fun b hother => ?_⟩
  · have hread (w : ByteWrite) (hw : w ∈ pixelWrites s sc (cellOffset s sc r k)) (hm : s.cfg.hasMemory w.1.toNat = true) :
        (s.writeBytes (glyphWrites s sc char)).readByte w.1 = some w.2 :=
      State.readByte_writeBytes_of_mem s _ w (mem_glyphWrites_iff.2 ⟨r, k, hr, hk, hset, hw⟩) hm
        (glyphWrites_addr_pairwise_ne hc hb char)
    simpa only [readByte_drawGlyph, pixelWrites_eq, List.forall_mem_cons, List.not_mem_nil, false_imp_iff, implies_true,
      and_true] using hread
  · rw [readByte_drawGlyph]
    refine State.readByte_writeBytes_of_not_mem s _ b (hother.imp_left fun hne w hw heq => ?_)
    obtain ⟨r, k, j, hr, hk, hj, hset, haddr⟩ := addr_of_mem_glyphWrites hw
    exact hne r k j hr hk hj hset (heq.trans haddr)

/-- Settles O18: each pixel of the extent is in bounds, and different pixels have different bytes. -/
theorem glyphAddressesAreDistinctAndInFrame : Obligations.GlyphAddressesAreDistinctAndInFrame := by
  intro s sc hc hb hplaced a
  have haddr (r k j : Nat) : a r k j = byteAddr (s.fbdraw sc) (cellOffset s sc r k) j := (byteAddr_cellOffset ..).symm
  simp only [haddr]
  refine ⟨fun r k j hr hk hj => ?_, fun r k j r' k' j' hr hk hj hr' hk' hj' h =>
    byteAddr_cell_inj hc hb _ hr hk hj hr' hk' hj' h⟩
  have hend := cellOffset_add_three_le hc hr hk (inBoundsPixel_of_glyph hb hr hk)
  exact byteAddr_inFrame hplaced (by omega)

/-! ### Memory through a command (spec/10_state.md R50, R51) -/

/-- Settles O52: a byte that reads differently lies at an address of an in-bounds pixel of the command's screen. -/
theorem commandsWriteOnlyTheFramebuffer : Obligations.CommandsWriteOnlyTheFramebuffer := by
  intro i s t hc h a hne
  have hframe {sc : Screen} {r k j : Nat} (hr : r < 8) (hk : k < 8) (hj : j < 3) (hb : InBoundsPixel s sc r k)
      (haddr : a = byteAddr (s.fbdraw sc) (cellOffset s sc r k) j) (hplaced : s.Placed sc) : s.InFrame sc a := by
    have hend := cellOffset_add_three_le hc hr hk hb
    exact haddr ▸ byteAddr_inFrame hplaced (by omega)
  cases commandEffect_of_runCommand (g := .whole) h with
  | pixelDrawn sc row col hb =>
    refine ⟨sc, .inl ⟨row, col, rfl⟩, ?_⟩
    by_contra hout
    refine hne (readByte_drawPixel_of_ne fun k hk heq => hout fun hplaced => ?_)
    exact hframe row.isLt col.isLt hk hb heq hplaced
  | glyphDrawn sc char hb =>
    refine ⟨sc, .inr ⟨char, rfl⟩, ?_⟩
    by_contra hout
    rw [readByte_drawGlyph] at hne
    refine hne (State.readByte_writeBytes_of_not_mem s _ a (.inl fun w hw heq => hout fun hplaced => ?_))
    obtain ⟨r, k, j, hr, hk, hj, -, haddr⟩ := addr_of_mem_glyphWrites hw
    exact hframe hr hk hj (inBoundsPixel_of_glyph hb hr hk) (heq.trans haddr) hplaced
  | _ => exact absurd rfl hne

end Sys2Proof.Machine
end

section
/-! GLYPH as a sequence of pixels (spec/41_glyph_unpacker.md R144, R147, R148): its records in scan order, the PXPUTs it equals, the
command given twice, and two glyphs in either order. -/

namespace Sys2Proof.Machine

/-! ### The records of a GLYPH, in order (R144; spec/20_memory.md R75) -/

theorem flatMap_filter_eq {α β : Type} (p : α → Bool) (f : α → List β) (l : List α) :
    (l.filter p).flatMap f = l.flatMap fun x => if p x then f x else [] := by
  induction l with
  | nil => rfl
  | cons x l ih =>
    cases hp : p x with
    | false => simp [hp, ih]
    | true => simp [hp, ih]

/-- What is done for the set bits in scan order is done row by row, and column by column in each. -/
theorem flatMap_setBits {β : Type} (c : Config) (char : Byte) (f : Scan → List β) :
    (setBits c char).flatMap f = (List.range 8).flatMap fun r => (List.range 8).flatMap fun k =>
      if glyphBit c char r k then f (scanAt r k) else [] := by
  rw [setBits, flatMap_filter_eq, scanOrder_eq_rows, List.flatMap_assoc]
  refine List.flatMap_congr fun r hr => ?_
  rw [List.flatMap_map]
  refine List.flatMap_congr fun k hk => ?_
  rw [scanBit_scanAt c char (List.mem_range.1 hr) (List.mem_range.1 hk)]

theorem exec_glyph_next {s t : State} {sc : Screen} {char : Byte} (hb : InBoundsGlyph s sc)
    (h : exec (.glyph sc char) s = .next t) :
    hitsWindow s.cfg (glyphWrites s sc char) = false ∧
      t = s.drawPixels sc ((setBits s.cfg char).map (scanOffset s sc)) := by
  have hclear : hitsWindow s.cfg (glyphWrites s sc char) = false := by
    by_contra hhits
    rw [show exec (.glyph sc char) s = .refused .windowOverlap from
      runCommand_glyph_of_hitsWindow hb (by simpa using hhits) .whole] at h
    cases h
  rw [exec_glyph_of_inBounds hb hclear] at h
  exact ⟨hclear, (Host.Outcome.next.inj h).symm⟩

/-- The last set bit is the one that no set bit follows in scan order. -/
theorem getLast?_setBits {c : Config} {char : Byte} {p : Scan} (hp : scanBit c char p = true)
    (hlast : ∀ q : Scan, p.number < q.number → scanBit c char q = false) : (setBits c char).getLast? = some p := by
  have hmem := mem_setBits_iff.2 hp
  obtain ⟨q, hq⟩ : ∃ q, (setBits c char).getLast? = some q :=
    Option.isSome_iff_exists.1 (List.getLast?_isSome.2 (List.ne_nil_of_mem hmem))
  obtain ⟨before, heq⟩ := List.getLast?_eq_some_iff.1 hq
  have hset : scanBit c char q = true := mem_setBits_iff.1 (by simp [heq])
  have hsorted := setBits_sorted c char
  rw [heq, List.pairwise_append] at hsorted
  obtain ⟨-, -, hbefore⟩ := hsorted
  rw [heq, List.mem_append, List.mem_singleton] at hmem
  obtain hmem | rfl := hmem
  · have hlt := hbefore p hmem q (List.mem_singleton_self q)
    simp [hlast q hlt] at hset
  · exact hq

theorem drawPixels_offset_eq (sc : Screen) (s : State) (ps : List Nat) :
    (s.drawPixels sc ps).offset = (ps.getLast?.map (BitVec.ofNat 32)).getD s.offset := by
  rw [drawPixels_eq]

/-- Settles O19: the pixels of the set bits in scan order, and the last of them. -/
theorem glyphWritesInScanOrder : Obligations.GlyphWritesInScanOrder := by
  intro s t sc char hb h
  obtain ⟨-, rfl⟩ := exec_glyph_next hb h
  refine ⟨?_, fun hnone => ?_, fun r k hr hk hset hlast => ?_⟩
  · rw [drawPixels_history, ← glyphWrites_eq, glyphWrites, flatMap_setBits]
    simp only [List.map_flatMap]
    refine congrArg (s.history ++ ·) (List.flatMap_congr fun r hr => List.flatMap_congr fun k hk => ?_)
    rw [scanOffset_scanAt s sc (List.mem_range.1 hr) (List.mem_range.1 hk), pixelWrites_eq]
    cases glyphBit s.cfg char r k with
    | false => rfl
    | true => rfl
  · have hempty : setBits s.cfg char = [] := List.eq_nil_iff_forall_not_mem.2 fun p hp => by
      have hbit := hnone p.row.toNat p.col.toNat p.row.isLt p.col.isLt
      exact absurd ((mem_setBits_iff.1 hp).symm.trans hbit) (by decide)
    rw [hempty, List.map_nil, State.drawPixels_nil]
  · have hlastBit : (setBits s.cfg char).getLast? = some (scanAt r k) := by
      refine getLast?_setBits ((scanBit_scanAt s.cfg char hr hk).trans hset) fun q hq => ?_
      rw [Scan.number, Scan.number, scanAt_row hr, scanAt_col r hk] at hq
      exact hlast _ _ q.row.isLt q.col.isLt hq
    rw [drawPixels_offset_eq, List.getLast?_map, hlastBit, ← scanOffset_scanAt s sc hr hk]
    rfl

/-! ### The PXPUTs that a GLYPH equals (R147) -/

theorem exec_pxput_of_inBounds_eq {s : State} {sc : Screen} {p : Scan} (hb : InBoundsPixel s sc p.row.toNat p.col.toNat) :
    exec (.pxput sc p.row p.col) s =
      if hitsWindow s.cfg (pixelWrites s sc (scanOffset s sc p)) then .refused .windowOverlap
      else .next (s.drawPixel sc (scanOffset s sc p)) :=
  if_pos hb

/-- PXPUTs of positions in bounds draw their pixels, unless one of them would write the block's own window. -/
theorem execAll_pxput {s : State} {sc : Screen} (hb : InBoundsGlyph s sc) (ps : List Scan) :
    execAll (ps.map fun p => .pxput sc p.row p.col) s =
      if hitsWindow s.cfg (ps.flatMap fun p => pixelWrites s sc (scanOffset s sc p)) then .refused .windowOverlap
      else .next (s.drawPixels sc (ps.map (scanOffset s sc))) := by
  induction ps generalizing s with
  | nil => rfl
  | cons p ps ih =>
    rw [List.map_cons, execAll, exec_pxput_of_inBounds_eq (inBoundsPixel_of_glyph hb p.row.isLt p.col.isLt)]
    cases hw : hitsWindow s.cfg (pixelWrites s sc (scanOffset s sc p)) with
    | true =>
      have hany : hitsWindow s.cfg ((p :: ps).flatMap fun p => pixelWrites s sc (scanOffset s sc p)) = true := by
        rw [hitsWindow, List.flatMap_cons, List.any_append, ← hitsWindow, hw, Bool.true_or]
      rw [hany]
      rfl
    | false =>
      have hoffset (q : Scan) : scanOffset (s.drawPixel sc (scanOffset s sc p)) sc q = scanOffset s sc q :=
        scanOffset_congr (by simp) (by simp) (by simp) sc q
      have hwrites (n : Nat) : pixelWrites (s.drawPixel sc (scanOffset s sc p)) sc n = pixelWrites s sc n :=
        pixelWrites_congr (by simp) (by simp) (by simp) sc n
      have hrest : hitsWindow s.cfg ((p :: ps).flatMap fun p => pixelWrites s sc (scanOffset s sc p)) =
          hitsWindow s.cfg (ps.flatMap fun p => pixelWrites s sc (scanOffset s sc p)) := by
        rw [hitsWindow, List.flatMap_cons, List.any_append, ← hitsWindow, hw, Bool.false_or, hitsWindow]
      rw [hrest]
      refine (ih (s := s.drawPixel sc (scanOffset s sc p)) (by simpa [InBoundsGlyph] using hb)).trans ?_
      simp only [hoffset, hwrites, State.drawPixel_cfg]
      rw [show scanOffset (s.drawPixel sc (scanOffset s sc p)) sc = scanOffset s sc from funext hoffset]
      rfl

theorem exec_glyph_of_inBounds_eq {s : State} {sc : Screen} (hb : InBoundsGlyph s sc) (char : Byte) :
    exec (.glyph sc char) s =
      if hitsWindow s.cfg (glyphWrites s sc char) then .refused .windowOverlap
      else .next (s.drawPixels sc ((setBits s.cfg char).map (scanOffset s sc))) :=
  if_pos hb

/-- Settles O21: the set bits' PXPUTs. -/
theorem glyphEqualsItsPxputSequence : Obligations.GlyphEqualsItsPxputSequence := by
  intro s sc char _ hb
  rw [exec_glyph_of_inBounds_eq hb, execAll_pxput hb]
  rfl

/-! ### The same command twice (spec/20_memory.md R67) -/

/-- The states agree in all that decides what a drawing command writes. -/
structure DrawsAlike (s t : State) : Prop where
  cfg : t.cfg = s.cfg
  posX : t.posX = s.posX
  posY : t.posY = s.posY
  color : t.color = s.color
  fbdraw0 : t.fbdraw0 = s.fbdraw0
  fbdraw1 : t.fbdraw1 = s.fbdraw1

section
variable {s t : State} (h : DrawsAlike s t)
include h

theorem DrawsAlike.pixelWrites (sc : Screen) : pixelWrites t sc = pixelWrites s sc :=
  funext fun p => pixelWrites_congr h.fbdraw0 h.fbdraw1 h.color sc p

theorem DrawsAlike.scanOffset (sc : Screen) : scanOffset t sc = scanOffset s sc :=
  funext fun p => scanOffset_congr h.cfg h.posX h.posY sc p

theorem DrawsAlike.glyphWrites (sc : Screen) (char : Byte) : glyphWrites t sc char = glyphWrites s sc char := by
  rw [glyphWrites_eq, glyphWrites_eq, h.pixelWrites, h.scanOffset, h.cfg]

/-- A GLYPH's outcome where the states agree: the same pixels drawn. -/
theorem DrawsAlike.exec_glyph {sc : Screen} {char : Byte} (hb : InBoundsGlyph s sc)
    (hw : hitsWindow s.cfg (Machine.glyphWrites s sc char) = false) :
    exec (.glyph sc char) t = .next (t.drawPixels sc ((setBits s.cfg char).map (Machine.scanOffset s sc))) := by
  have hb' : InBoundsGlyph t sc := by rwa [InBoundsGlyph, h.cfg, h.posX, h.posY]
  have hw' : hitsWindow t.cfg (Machine.glyphWrites t sc char) = false := by rwa [h.glyphWrites, h.cfg]
  rw [exec_glyph_of_inBounds hb' hw', h.scanOffset, h.cfg]

theorem DrawsAlike.drawPixels_memory (sc : Screen) (char : Byte) :
    (t.drawPixels sc ((setBits s.cfg char).map (Machine.scanOffset s sc))).memory =
      (t.writeBytes (Machine.glyphWrites s sc char)).memory := by
  rw [Machine.drawPixels_memory, h.pixelWrites, glyphWrites_eq]

end

theorem drawsAlike_drawPixels (sc : Screen) (s : State) (ps : List Nat) : DrawsAlike s (s.drawPixels sc ps) := by
  constructor <;> simp

/-- The same pixels drawn a second time add only their records. -/
theorem drawPixels_twice {s : State} (h : s.memory.wf) (sc : Screen) (ps : List Nat) :
    { (s.drawPixels sc ps).drawPixels sc ps with history := (s.drawPixels sc ps).history } = s.drawPixels sc ps := by
  have hwrites : pixelWrites (s.drawPixels sc ps) sc = pixelWrites s sc :=
    funext fun p => pixelWrites_congr (by simp) (by simp) (by simp) sc p
  have hmem : ((s.drawPixels sc ps).drawPixels sc ps).memory = (s.drawPixels sc ps).memory := by
    rw [drawPixels_memory, hwrites,
      State.writeBytes_memory_congr (t := s.writeBytes (ps.flatMap (pixelWrites s sc))) (by simp) (drawPixels_memory sc s ps),
      State.writeBytes_twice_memory h, drawPixels_memory]
  have hoffset : ((s.drawPixels sc ps).drawPixels sc ps).offset = (s.drawPixels sc ps).offset := by
    rw [drawPixels_offset_eq, drawPixels_offset_eq]
    cases ps.getLast? with
    | none => rfl
    | some p => rfl
  rw [drawPixels_frame sc (s.drawPixels sc ps), hmem, hoffset]

theorem exec_pxput_next {s t : State} {sc : Screen} {row col : BitVec 3} (hb : InBoundsPixel s sc row.toNat col.toNat)
    (h : exec (.pxput sc row col) s = .next t) :
    (∀ k, k < 3 → ¬ InWindow s.cfg (byteAddr (s.fbdraw sc) (cellOffset s sc row.toNat col.toNat) k)) ∧
      t = s.drawPixel sc (cellOffset s sc row.toNat col.toNat) := by
  have hclear (k : Nat) (hk : k < 3) :
      ¬ InWindow s.cfg (byteAddr (s.fbdraw sc) (cellOffset s sc row.toNat col.toNat) k) := fun hin => by
    obtain ⟨w, hw, haddr⟩ := exists_mem_pixelWrites s sc (cellOffset s sc row.toNat col.toNat) hk
    rw [show exec (.pxput sc row col) s = .refused .windowOverlap from
      runCommand_pxput_of_hitsWindow hb (hitsWindow_of_mem hw (haddr ▸ hin)) .whole] at h
    cases h
  rw [exec_pxput_of_inBounds hb hclear] at h
  exact ⟨hclear, (Host.Outcome.next.inj h).symm⟩

/-- Settles O22: pixels are drawn over themselves, and a fault is raised again with the same word. -/
theorem writingCommandsAreIdempotent : Obligations.WritingCommandsAreIdempotent := by
  rintro s t i (⟨sc, row, col, rfl⟩ | ⟨sc, char, rfl⟩) hmem h
  · by_cases hb : InBoundsPixel s sc row.toNat col.toNat
    · obtain ⟨hclear, rfl⟩ := exec_pxput_next hb h
      exact ⟨_, exec_pxput_after_drawPixel _ hb hclear, drawPixel_twice hmem sc _⟩
    · obtain rfl := Host.Outcome.next.inj ((runCommand_pxput_of_not_inBounds hb .whole).symm.trans h)
      exact ⟨_, runCommand_pxput_of_not_inBounds (s := s.raise _ _) hb .whole, rfl⟩
  · by_cases hb : InBoundsGlyph s sc
    · obtain ⟨hclear, rfl⟩ := exec_glyph_next hb h
      exact ⟨_, (drawsAlike_drawPixels sc s _).exec_glyph hb hclear, drawPixels_twice hmem sc _⟩
    · obtain rfl := Host.Outcome.next.inj ((runCommand_glyph_of_not_inBounds hb .whole char).symm.trans h)
      exact ⟨_, runCommand_glyph_of_not_inBounds (s := s.raise _ _) hb .whole char, rfl⟩

/-! ### Two glyphs in either order (R148) -/

/-- Byte writes to different addresses leave the same memory in either order. -/
theorem State.writeBytes_comm_memory {s : State} (h : s.memory.wf) {vs ws : List ByteWrite}
    (hne : ∀ v ∈ vs, ∀ w ∈ ws, v.1 ≠ w.1) :
    ((s.writeBytes vs).writeBytes ws).memory = ((s.writeBytes ws).writeBytes vs).memory := by
  refine Memory.ext_of_wf (State.writeBytes_wf (State.writeBytes_wf h vs) ws)
    (State.writeBytes_wf (State.writeBytes_wf h ws) vs) fun a => ?_
  change ((s.writeBytes vs).writeBytes ws).readByte a = ((s.writeBytes ws).writeBytes vs).readByte a
  have hfirst : (∀ w ∈ ws, a ≠ w.1) ∨ ∀ v ∈ vs, a ≠ v.1 := by
    by_contra hboth
    push Not at hboth
    obtain ⟨⟨w, hw, rfl⟩, v, hv, heq⟩ := hboth
    exact hne v hv w hw heq.symm
  have hlater {us us' : List ByteWrite} (hus : ∀ u ∈ us', a ≠ u.1) :
      ((s.writeBytes us).writeBytes us').readByte a = ((s.writeBytes us').writeBytes us).readByte a := by
    rw [State.readByte_writeBytes_of_not_mem _ us' a (.inl hus)]
    by_cases hwritten : (∃ u ∈ us, a = u.1) ∧ s.cfg.hasMemory a.toNat = true
    · obtain ⟨hu, hm⟩ := hwritten
      exact State.readByte_writeBytes_of_written (by simp) hu hm
    · have hkept : (∀ u ∈ us, a ≠ u.1) ∨ s.cfg.hasMemory a.toNat = false := by
        rcases not_and_or.1 hwritten with hnot | hnot
        · exact .inl fun u hu heq => hnot ⟨u, hu, heq⟩
        · exact .inr (by simpa using hnot)
      rw [State.readByte_writeBytes_of_not_mem _ us a hkept,
        State.readByte_writeBytes_of_not_mem _ us a (by simpa using hkept),
        State.readByte_writeBytes_of_not_mem _ us' a (.inl hus)]
  rcases hfirst with hws | hvs
  · exact hlater hws
  · exact (hlater hvs).symm

/-- Glyphs whose extents do not overlap write different addresses. -/
theorem glyphWrites_addr_ne {s t : State} {sc : Screen} (hc : s.cfg.Wf) (hcfg : t.cfg = s.cfg)
    (hfb : t.fbdraw sc = s.fbdraw sc) (hbs : InBoundsGlyph s sc) (hbt : InBoundsGlyph t sc)
    (hapart : s.posX.toNat + 8 ≤ t.posX.toNat ∨ t.posX.toNat + 8 ≤ s.posX.toNat ∨
      s.posY.toNat + 8 ≤ t.posY.toNat ∨ t.posY.toNat + 8 ≤ s.posY.toNat) {c d : Byte} :
    ∀ v ∈ glyphWrites s sc c, ∀ w ∈ glyphWrites t sc d, v.1 ≠ w.1 := by
  intro v hv w hw heq
  obtain ⟨r, k, j, hr, hk, hj, -, hvaddr⟩ := addr_of_mem_glyphWrites hv
  obtain ⟨r', k', j', hr', hk', hj', -, hwaddr⟩ := addr_of_mem_glyphWrites hw
  rw [hfb] at hwaddr
  refine byteAddr_ne_of_pixel_ne hc hcfg hr hk hr' hk' (inBoundsPixel_of_glyph hbs hr hk)
    (inBoundsPixel_of_glyph hbt hr' hk') ?_ (s.fbdraw sc) hj' hj (hwaddr.symm.trans (heq.symm.trans hvaddr))
  rw [ne_eq, Prod.mk.injEq]
  omega

/-- The state with the place and the colour of the next glyph written. -/
def State.placeGlyph (s : State) (x y color : Word) : State := { s with posX := x, posY := y, color := color }

/-- One glyph after the other: what memory holds is what both wrote. -/
theorem exec_glyph_then {s : State} {sc : Screen} {c d : Byte} {x y color x' y' color' : Word}
    (hb : InBoundsGlyph (s.placeGlyph x y color) sc)
    (hw : hitsWindow s.cfg (glyphWrites (s.placeGlyph x y color) sc c) = false)
    (hb' : InBoundsGlyph (s.placeGlyph x' y' color') sc)
    (hw' : hitsWindow s.cfg (glyphWrites (s.placeGlyph x' y' color') sc d) = false) :
    ∃ t t', exec (.glyph sc c) (s.placeGlyph x y color) = .next t ∧
      exec (.glyph sc d) (t.placeGlyph x' y' color') = .next t' ∧
      t'.memory = ((s.writeBytes (glyphWrites (s.placeGlyph x y color) sc c)).writeBytes
        (glyphWrites (s.placeGlyph x' y' color') sc d)).memory := by
  have hdrawn := drawsAlike_drawPixels sc (s.placeGlyph x y color)
    ((setBits s.cfg c).map (scanOffset (s.placeGlyph x y color) sc))
  have halike : DrawsAlike (s.placeGlyph x' y' color') (State.placeGlyph (State.drawPixels sc _ _) x' y' color') :=
    ⟨hdrawn.cfg, rfl, rfl, rfl, hdrawn.fbdraw0, hdrawn.fbdraw1⟩
  refine ⟨_, _, exec_glyph_of_inBounds hb hw, halike.exec_glyph hb' hw', ?_⟩
  rw [halike.drawPixels_memory]
  refine State.writeBytes_memory_congr ?_ ?_ _
  · rw [State.writeBytes_cfg]
    exact hdrawn.cfg
  · refine (drawPixels_memory ..).trans ?_
    rw [glyphWrites_eq]
    exact State.writeBytes_memory_congr (s := s.placeGlyph x y color) (t := s) rfl rfl _

/-- Settles O23: each order leaves what both glyphs wrote, and they write different addresses. -/
theorem disjointGlyphsCommute : Obligations.DisjointGlyphsCommute := by
  intro s sc c d x y x' y' color color' hc hmem at1 at2 hb1 hb2 hapart hw1 hw2
  obtain ⟨t1, t12, h1, h12, hmem12⟩ := exec_glyph_then (x := x) (y := y) (color := color) (x' := x') (y' := y')
    (color' := color') hb1 hw1 hb2 hw2
  obtain ⟨t2, t21, h2, h21, hmem21⟩ := exec_glyph_then (x := x') (y := y') (color := color') (x' := x) (y' := y)
    (color' := color) hb2 hw2 hb1 hw1
  refine ⟨t1, t12, t2, t21, h1, h12, h2, h21, ?_⟩
  have hne := glyphWrites_addr_ne (s := s.placeGlyph x y color) (t := s.placeGlyph x' y' color') (c := c) (d := d) hc rfl
    (by cases sc <;> rfl) hb1 hb2 hapart
  rw [hmem12, hmem21, State.writeBytes_comm_memory hmem hne]

end Sys2Proof.Machine
end

section
/-! The stepwise grain (spec/41_glyph_unpacker.md R143, spec/42_frame_pacer.md R175, spec/70_reset_and_hazards.md R270): a drawing
command part way on its way to the state of the whole command, and what the schedule puts between two of its steps. -/

namespace Sys2Proof.Machine

/-! ### Where a drawing command part way is going -/

/-- The positions still to be examined. -/
def scanLeft : Option (Byte × Scan) → List Scan
  | none => []
  | some (_, p) => scanFrom 64 p

theorem scanLeft_some (char : Byte) (p : Scan) : scanLeft (some (char, p)) = p :: scanLeft (scanRest char p) := by
  cases hq : p.next with
  | none => simp [scanLeft, scanRest, scanFrom_of_next_none hq, hq]
  | some q => simp [scanLeft, scanRest, scanFrom_of_next hq, hq]

theorem length_setBitsLeft_le (c : Config) (scan : Option (Byte × Scan)) :
    (setBitsLeft c scan).length ≤ (scanLeft scan).length := by
  cases scan with
  | none => exact le_rfl
  | some cp => exact List.length_filter_le ..

/-- The steps a drawing command still takes: one for each byte left, one for each bit with three for its pixel, and its end. -/
def stepsLeft (s : State) : Nat :=
  match s.seq with
  | .idle => 0
  | .waiting => 0
  | .drawing _ scan pending => pending.length + (scanLeft scan).length + 3 * (setBitsLeft s.cfg scan).length + 1

/-- The state in which a drawing command ends: its bytes written, its pixels drawn. -/
def finishState (s : State) : State :=
  match s.seq with
  | .idle => s
  | .waiting => s
  | .drawing sc scan pending =>
    (({ s with seq := .idle } : State).writeBytes pending).drawPixels sc ((setBitsLeft s.cfg scan).map (scanOffset s sc))

section
variable {s : State}

theorem stepsLeft_of_drawing {sc : Screen} {scan : Option (Byte × Scan)} {pending : List ByteWrite}
    (h : s.seq = .drawing sc scan pending) :
    stepsLeft s = pending.length + (scanLeft scan).length + 3 * (setBitsLeft s.cfg scan).length + 1 := by
  rw [stepsLeft, h]

theorem finishState_of_drawing {sc : Screen} {scan : Option (Byte × Scan)} {pending : List ByteWrite}
    (h : s.seq = .drawing sc scan pending) :
    finishState s = (({ s with seq := .idle } : State).writeBytes pending).drawPixels sc
      ((setBitsLeft s.cfg scan).map (scanOffset s sc)) := by
  rw [finishState, h]

theorem stepsLeft_of_not_drawing (h : s.seq = .idle ∨ s.seq = .waiting) : stepsLeft s = 0 := by
  rcases h with h | h
  · rw [stepsLeft, h]
  · rw [stepsLeft, h]

theorem finishState_of_not_drawing (h : s.seq = .idle ∨ s.seq = .waiting) : finishState s = s := by
  rcases h with h | h
  · rw [finishState, h]
  · rw [finishState, h]

theorem not_drawing_of_stepsLeft_eq_zero (h : stepsLeft s = 0) : s.seq = .idle ∨ s.seq = .waiting := by
  cases hs : s.seq with
  | idle => exact .inl rfl
  | waiting => exact .inr rfl
  | drawing sc scan pending => simp [stepsLeft_of_drawing hs] at h

theorem drawStep_of_not_drawing (h : s.seq = .idle ∨ s.seq = .waiting) : s.drawStep = s := by
  rcases h with h | h
  · rw [State.drawStep, h]
  · rw [State.drawStep, h]

end

/-- A step of a drawing command is one of those it still takes, and leaves where it is going. -/
theorem stepsLeft_finishState_drawStep {s : State} (h : stepsLeft s ≠ 0) :
    stepsLeft s = stepsLeft s.drawStep + 1 ∧ finishState s.drawStep = finishState s := by
  cases hs : s.seq with
  | idle => exact absurd (stepsLeft_of_not_drawing (.inl hs)) h
  | waiting => exact absurd (stepsLeft_of_not_drawing (.inr hs)) h
  | drawing sc scan pending =>
    rw [stepsLeft_of_drawing hs, finishState_of_drawing hs]
    rcases drawStep_cases hs with ⟨w, v, rfl, h⟩ | ⟨rfl, rfl, h⟩ | ⟨char, p, rfl, rfl, hb, h⟩ | ⟨char, p, rfl, rfl, hb, h⟩
    · rw [h, stepsLeft_of_drawing rfl, finishState_of_drawing rfl, List.length_cons]
      exact ⟨by simp only [State.writeByte_cfg]; omega, rfl⟩
    · rw [h]
      exact ⟨rfl, rfl⟩
    · rw [h, stepsLeft_of_drawing rfl, finishState_of_drawing rfl, scanLeft_some, setBitsLeft_some, if_pos hb]
      exact ⟨by simp [pixelWrites]; omega, rfl⟩
    · rw [h, stepsLeft_of_drawing rfl, finishState_of_drawing rfl, scanLeft_some, setBitsLeft_some, hb]
      exact ⟨by simp; omega, rfl⟩

/-- Given its steps or more, a drawing command has come to its end. -/
theorem iterate_drawStep_of_le {n : Nat} {s : State} (h : stepsLeft s ≤ n) : State.drawStep^[n] s = finishState s := by
  induction n generalizing s with
  | zero => exact (finishState_of_not_drawing (not_drawing_of_stepsLeft_eq_zero (Nat.le_zero.1 h))).symm
  | succ n ih =>
    rw [Function.iterate_succ_apply]
    by_cases hzero : stepsLeft s = 0
    · rw [drawStep_of_not_drawing (not_drawing_of_stepsLeft_eq_zero hzero)]
      exact ih (by omega)
    · obtain ⟨hsteps, hfinish⟩ := stepsLeft_finishState_drawStep hzero
      rw [← hfinish]
      exact ih (by omega)

/-- With only the stalled host next, the machine takes just these steps. -/
theorem runSteps_stepsLeft {n : Nat} {s : State} (h : stepsLeft s = n) (hi : agentNext s.inputs = false) :
    runSteps n s = .next (finishState s) := by
  induction n generalizing s with
  | zero => rw [finishState_of_not_drawing (not_drawing_of_stepsLeft_eq_zero h), runSteps]
  | succ n ih =>
    obtain ⟨hsteps, hfinish⟩ := stepsLeft_finishState_drawStep (s := s) (by omega)
    cases hs : s.seq with
    | idle => exact absurd (stepsLeft_of_not_drawing (.inl hs)) (by omega)
    | waiting => exact absurd (stepsLeft_of_not_drawing (.inr hs)) (by omega)
    | drawing sc scan pending =>
      rw [runSteps, step_of_drawing_moves hs hi]
      exact hfinish ▸ ih (by omega) (by rwa [State.drawStep_inputs])

/-! ### From the beginning to the end (R143) -/

theorem State.with_seq_idle {s : State} (hs : s.seq = .idle) : { s with seq := .idle } = s := by
  rw [← hs]

theorem length_scanLeft_first (char : Byte) : (scanLeft (some (char, Scan.first))).length = 64 := by
  have hlength : scanOrder.length = 64 := by decide
  exact hlength

theorem CommandEffect.not_drawing {s t : State} {i : Instr} (h : CommandEffect s .whole i t) (hs : s.seq = .idle) :
    t.seq = .idle ∨ t.seq = .waiting := by
  cases h with
  | waitHeld => exact .inr rfl
  | waitCompleted => exact .inl rfl
  | _ => exact .inl (by simpa using hs)

/-- A command that ends in one step at either grain is at its end. -/
theorem stepwise_of_one_step {s t : State} {i : Instr} (hs : s.seq = .idle) (h : exec i s = .next t)
    (hbegin : beginExec i s = .next t) :
    ∃ b, beginExec i s = .next b ∧ stepsLeft b ≤ 257 ∧ finishState b = t ∧ b.inputs = s.inputs := by
  have hdone := (commandEffect_of_runCommand (g := .whole) h).not_drawing hs
  obtain ⟨-, -, -, -, -, -, hinputs, -⟩ := commandsWriteOnlyTheirState i s t h
  exact ⟨t, hbegin, by rw [stepsLeft_of_not_drawing hdone]; omega, finishState_of_not_drawing hdone, hinputs⟩

theorem beginExec_pxput_of_inBounds {s : State} {sc : Screen} {row col : BitVec 3}
    (hb : InBoundsPixel s sc row.toNat col.toNat)
    (hw : hitsWindow s.cfg (pixelWrites s sc (cellOffset s sc row.toNat col.toNat)) = false) :
    beginExec (.pxput sc row col) s = .next { s.latchOffset (cellOffset s sc row.toNat col.toNat) with
      seq := .drawing sc none (pixelWrites s sc (cellOffset s sc row.toNat col.toNat)) } := by
  simp [beginExec, beginPxput, hb, hw]

theorem beginExec_glyph_of_inBounds {s : State} {sc : Screen} {char : Byte} (hb : InBoundsGlyph s sc)
    (hw : hitsWindow s.cfg (glyphWrites s sc char) = false) :
    beginExec (.glyph sc char) s = .next { s with seq := .drawing sc (some (char, Scan.first)) [] } := by
  simp [beginExec, beginGlyph, hb, hw]

/-- The command begun is on its way to the state of the whole command, with at most 257 steps to take. -/
theorem exists_begun_of_exec {s t : State} {i : Instr} (hs : s.seq = .idle) (h : exec i s = .next t) :
    ∃ b, beginExec i s = .next b ∧ stepsLeft b ≤ 257 ∧ finishState b = t ∧ b.inputs = s.inputs := by
  cases i with
  | pxput sc row col =>
    by_cases hb : InBoundsPixel s sc row.toNat col.toNat
    · obtain ⟨hclear, rfl⟩ := exec_pxput_next hb h
      have hw : hitsWindow s.cfg (pixelWrites s sc (cellOffset s sc row.toNat col.toNat)) = false :=
        hitsWindow_eq_false_iff.2 fun w hw => by
          obtain ⟨k, hk, haddr⟩ := addr_of_mem_pixelWrites hw
          exact haddr ▸ hclear k hk
      refine ⟨_, beginExec_pxput_of_inBounds hb hw, ?_, ?_, rfl⟩
      · simp [stepsLeft, pixelWrites, scanLeft, setBitsLeft]
      · refine (finishState_of_drawing rfl).trans ?_
        exact congrArg (State.drawPixel sc · (cellOffset s sc row.toNat col.toNat)) (State.with_seq_idle hs)
    · exact stepwise_of_one_step hs h ((runCommand_pxput_of_not_inBounds hb .stepwise).trans
        ((runCommand_pxput_of_not_inBounds hb .whole).symm.trans h))
  | glyph sc char =>
    by_cases hb : InBoundsGlyph s sc
    · obtain ⟨hw, rfl⟩ := exec_glyph_next hb h
      refine ⟨_, beginExec_glyph_of_inBounds hb hw, ?_, ?_, rfl⟩
      · have hset := length_setBitsLeft_le s.cfg (some (char, Scan.first))
        rw [length_scanLeft_first] at hset
        rw [stepsLeft_of_drawing rfl, length_scanLeft_first, List.length_nil]
        exact (by omega : 0 + 64 + 3 * (setBitsLeft s.cfg (some (char, Scan.first))).length + 1 ≤ 257)
      · refine (finishState_of_drawing rfl).trans ?_
        exact congrArg (State.drawPixels sc · ((setBits s.cfg char).map (scanOffset s sc))) (State.with_seq_idle hs)
    · exact stepwise_of_one_step hs h ((runCommand_glyph_of_not_inBounds hb .stepwise char).trans
        ((runCommand_glyph_of_not_inBounds hb .whole char).symm.trans h))
  | _ => exact stepwise_of_one_step hs h h

/-- Both grains make the same checks. -/
theorem exec_refused_iff {i : Instr} {s : State} {r : Refusal} : exec i s = .refused r ↔ beginExec i s = .refused r := by
  have hchecks {inBounds : Prop} [Decidable inBounds] {hits : Bool} {u v w : State} :
      (if inBounds then if hits then .refused .windowOverlap else .next u else .next w : Outcome) = .refused r ↔
        (if inBounds then if hits then .refused .windowOverlap else .next v else .next w : Outcome) = .refused r := by
    split
    · split
      · rfl
      · simp
    · rfl
  cases i with
  | pxput sc row col => exact hchecks
  | glyph sc char => exact hchecks
  | _ => rfl

/-- Settles O24: the steps left are at most 257 and lead to the end. -/
theorem stepwiseCommandReachesWholeCommand : Obligations.StepwiseCommandReachesWholeCommand := by
  intro s i hs
  refine ⟨fun t h => ?_, fun r => exec_refused_iff⟩
  obtain ⟨b, hbegin, hsteps, rfl, hinputs⟩ := exists_begun_of_exec hs h
  exact ⟨b, hbegin, iterate_drawStep_of_le hsteps, fun hi => ⟨_, hsteps, runSteps_stepsLeft rfl (hinputs ▸ hi)⟩⟩

/-! ### The ticker and a drawing step (R175; spec/20_memory.md R74) -/

/-- A drawing step neither reads nor writes TICK, the inputs and the records before it. -/
theorem drawStep_with (s : State) : ∃ new, ∀ (v : Word) (rest : List Input) (h : List Record),
    ({ s with tick := v, inputs := rest, history := h } : State).drawStep =
      { s.drawStep with tick := v, inputs := rest, history := h ++ new } := by
  cases hs : s.seq with
  | idle => exact ⟨[], fun v rest h => by simp [State.drawStep, hs]⟩
  | waiting => exact ⟨[], fun v rest h => by simp [State.drawStep, hs]⟩
  | drawing sc scan pending =>
    cases pending with
    | cons w ws => exact ⟨[.memWrite w.1 w.2], fun v rest h => by simp [State.drawStep, hs]⟩
    | nil =>
      cases scan with
      | none => exact ⟨[], fun v rest h => by simp [State.drawStep, hs]⟩
      | some cp =>
        obtain ⟨char, p⟩ := cp
        refine ⟨[], fun v rest h => ?_⟩
        cases hb : scanBit s.cfg char p with
        | false => simp [State.drawStep, hs, hb]
        | true =>
          simp only [State.drawStep, hs, hb, if_true, List.append_nil]
          rfl

/-- Settles O26: the records of a drawing step do not depend on the tick, so only their order shows. -/
theorem tickerCommutesWithDrawing : Obligations.TickerCommutesWithDrawing := by
  intro s
  cases hr : s.run with
  | false =>
    rw [State.ticked_of_stopped s hr, State.ticked_of_stopped _ (by simpa using hr)]
    exact ⟨rfl, .refl _⟩
  | true =>
    obtain ⟨new, hnew⟩ := drawStep_with s
    have hself := hnew s.tick s.inputs s.history
    have hticked := hnew (tickTrunc s.cfg (s.tick.toNat + 1)) s.inputs (s.history ++ [.tick])
    have hhistory : s.drawStep.history = s.history ++ new := congrArg State.history hself
    rw [State.ticked_of_run s hr, State.ticked_of_run _ (by simpa using hr), hhistory]
    refine ⟨by rw [hticked]; simp, ?_⟩
    rw [hticked, List.append_assoc, List.append_assoc]
    exact List.perm_append_comm.append_left _

/-! ### The schedule inside a command (R175, R270) -/

theorem State.seq_cases (s : State) :
    s.seq = .idle ∨ s.seq = .waiting ∨ ∃ sc scan pending, s.seq = .drawing sc scan pending := by
  cases s.seq with
  | idle => exact .inl rfl
  | waiting => exact .inr (.inl rfl)
  | drawing sc scan pending => exact .inr (.inr ⟨sc, scan, pending, rfl⟩)

section
variable {s : State} {rest : List Input} (hw : s.seq = .waiting → ¬ Reached s)
include hw

/-- The sequencer's turn, in whatever condition it is but a reached hold: a drawing step, or nothing. -/
theorem step_of_turn (hi : s.inputs = .sequencer :: rest) :
    step s = .next ({ s with inputs := rest } : State).drawStep := by
  obtain hs | hs | ⟨sc, scan, pending, hs⟩ := s.seq_cases
  · rw [drawStep_of_not_drawing (s := { s with inputs := rest }) (.inl hs), step_of_idle hs, idleStep, hi]
  · rw [drawStep_of_not_drawing (s := { s with inputs := rest }) (.inr hs), step_of_waiting hs, waitingStep,
      if_neg (hw hs), hi]
  · exact step_of_drawing_turn hs hi

/-- A tick that is next is taken at once, but for the moment at which a hold completes. -/
theorem step_of_tick (hi : s.inputs = .tick :: rest) : step s = .next ({ s with inputs := rest } : State).ticked := by
  obtain hs | hs | ⟨sc, scan, pending, hs⟩ := s.seq_cases
  · rw [step_of_idle hs, idleStep, hi]
  · rw [step_of_waiting hs, waitingStep, if_neg (hw hs), hi]
  · rw [step_of_drawing hs, drawingStep, hi]

/-- A drawing step begins no hold and ends none. -/
theorem drawStep_short (hwaiting : s.drawStep.seq = .waiting) : ¬ Reached s.drawStep := by
  cases hs : s.seq with
  | idle => simp [drawStep_of_not_drawing (.inl hs), hs] at hwaiting
  | waiting =>
    rw [drawStep_of_not_drawing (.inr hs)]
    exact hw hs
  | drawing sc scan pending =>
    rcases drawStep_cases hs with ⟨w, v, -, h⟩ | ⟨-, -, h⟩ | ⟨char, p, -, -, -, h⟩ | ⟨char, p, -, -, -, h⟩
    all_goals simp [h] at hwaiting

end

theorem drawStep_with_inputs (s : State) (rest : List Input) :
    ({ s with inputs := rest } : State).drawStep = { s.drawStep with inputs := rest } := by
  obtain ⟨new, hnew⟩ := drawStep_with s
  have hself := hnew s.tick s.inputs s.history
  have hrest := hnew s.tick rest s.history
  rw [hrest]
  conv_rhs => rw [hself]

theorem iterate_drawStep_with_inputs (n : Nat) (s : State) (rest : List Input) :
    State.drawStep^[n] { s with inputs := rest } = { State.drawStep^[n] s with inputs := rest } := by
  induction n generalizing s with
  | zero => rfl
  | succ n ih => rw [Function.iterate_succ_apply, Function.iterate_succ_apply, drawStep_with_inputs, ih]

theorem iterate_drawStep_cfg (n : Nat) (s : State) : (State.drawStep^[n] s).cfg = s.cfg := by
  induction n generalizing s with
  | zero => rfl
  | succ n ih => rw [Function.iterate_succ_apply, ih, State.drawStep_cfg]

/-- `n` turns of the sequencer in the schedule are `n` drawing steps. -/
theorem runSteps_turns {n : Nat} (k : Nat) {s : State} {rest : List Input} (hw : s.seq = .waiting → ¬ Reached s)
    (hi : s.inputs = List.replicate n .sequencer ++ rest) :
    runSteps (n + k) s = runSteps k { State.drawStep^[n] s with inputs := rest } ∧
      ((State.drawStep^[n] s).seq = .waiting → ¬ Reached (State.drawStep^[n] s)) := by
  induction n generalizing s with
  | zero =>
    refine ⟨?_, hw⟩
    rw [Nat.zero_add, Function.iterate_zero_apply, show rest = s.inputs from hi.symm]
  | succ n ih =>
    rw [List.replicate_succ, List.cons_append] at hi
    have hnext : runSteps (n + 1 + k) s =
        runSteps (n + k) { s.drawStep with inputs := List.replicate n .sequencer ++ rest } := by
      rw [Nat.add_right_comm, runSteps, step_of_turn hw hi, drawStep_with_inputs]
    obtain ⟨hrun, hshort⟩ := ih (s := { s.drawStep with inputs := List.replicate n .sequencer ++ rest }) (drawStep_short hw) rfl
    rw [iterate_drawStep_with_inputs] at hrun hshort
    rw [Function.iterate_succ_apply, hnext]
    exact ⟨hrun, hshort⟩

/-- A command begun does not look at the inputs. -/
theorem beginExec_with_inputs {i : Instr} {s b : State} (h : beginExec i s = .next b) (rest : List Input) :
    beginExec i { s with inputs := rest } = .next { b with inputs := rest } := by
  have hchecks {inBounds : Prop} [Decidable inBounds] {hits : Bool} {u v : State}
      (h : (if inBounds then if hits then .refused .windowOverlap else .next u else .next v : Outcome) = .next b) :
      (if inBounds then if hits then .refused .windowOverlap else .next { u with inputs := rest }
        else .next { v with inputs := rest } : Outcome) = .next { b with inputs := rest } := by
    split at h
    · split at h
      · cases h
      · cases h
        simp_all
    · cases h
      simp_all
  have hcheck {p : Prop} [Decidable p] {u v : State} (h : (if p then .next u else .next v : Outcome) = .next b) :
      (if p then .next { u with inputs := rest } else .next { v with inputs := rest } : Outcome) =
        .next { b with inputs := rest } := by
    split at h
    · cases h
      simp_all
    · cases h
      simp_all
  cases i with
  | pxaddr sc row col => exact hcheck h
  | pxput sc row col => exact hchecks h
  | glyph sc char => exact hchecks h
  | fpstart => exact hcheck h
  | fpwait => exact hcheck h
  | _ =>
    cases h
    rfl

theorem CommandEffect.short {s t : State} {g : Grain} {i : Instr} (h : CommandEffect s g i t) (hs : s.seq = .idle)
    (hwaiting : t.seq = .waiting) : ¬ Reached t := by
  cases h with
  | waitHeld g hr => exact hr
  | pixelDrawn | glyphDrawn => simp [hs] at hwaiting
  | _ => simp [hs] at hwaiting

/-- Settles O25: after the turns, the tick or the reset meets the command where they left it. -/
theorem tickAndResetFallInsideACommand : Obligations.TickAndResetFallInsideACommand := by
  intro s b i n rest hc hs he hbegin
  have heffect : CommandEffect _ .stepwise i b := commandEffect_of_runCommand hbegin
  have hcfg : b.cfg = s.cfg := heffect.cfg
  have hinputs : b.inputs = rest := congrArg State.inputs
    (Host.Outcome.next.inj (hbegin.symm.trans (beginExec_with_inputs hbegin rest)))
  have hrun {last : Input} (hi : s.inputs = commandInput s.cfg .stepwise (encode i) ::
        (List.replicate n .sequencer ++ last :: rest)) :
      runSteps (n + 2) s = runSteps 1 { State.drawStep^[n] b with inputs := last :: rest } ∧
        ((State.drawStep^[n] b).seq = .waiting → ¬ Reached (State.drawStep^[n] b)) := by
    have hfirst : step s = .next { b with inputs := List.replicate n .sequencer ++ last :: rest } :=
      (step_of_command hc hs he (decodeOfEncode i) hi).trans (beginExec_with_inputs hbegin _)
    obtain ⟨hturns, hshort⟩ := runSteps_turns 1 (s := { b with inputs := List.replicate n .sequencer ++ last :: rest })
      (heffect.short hs) rfl
    rw [iterate_drawStep_with_inputs] at hturns hshort
    rw [runSteps, hfirst]
    exact ⟨hturns, hshort⟩
  have hback : { State.drawStep^[n] b with inputs := rest } = State.drawStep^[n] b := by
    rw [← iterate_drawStep_with_inputs, ← hinputs]
  have hcfgn : (State.drawStep^[n] b).cfg = s.cfg := (iterate_drawStep_cfg n b).trans hcfg
  refine ⟨fun hi => ?_, fun hi => ?_⟩
  · obtain ⟨hturns, hshort⟩ := hrun hi
    have htick : step { State.drawStep^[n] b with inputs := .tick :: rest } =
        .next ({ State.drawStep^[n] b with inputs := rest } : State).ticked := step_of_tick hshort rfl
    rw [hturns, runSteps, htick, hback]
    rfl
  · obtain ⟨hturns, hshort⟩ := hrun hi
    have hreset : step { State.drawStep^[n] b with inputs := .reset :: rest } =
        .next ({ State.drawStep^[n] b with inputs := rest } : State).resetBlock := step_of_reset rfl hshort
    rw [hturns, runSteps, hreset, ← hcfgn]
    rfl

end Sys2Proof.Machine
end

section
/-! The frame pacer's ticker and the held FPWAIT (spec/42_frame_pacer.md R170, R171, R175, R177): the wrapping counter, and every way
in which a hold goes on or ends. -/

namespace Sys2Proof.Machine

/-! ### The ticker (R175, R177) -/

theorem tickBits_le_of_wf {c : Config} (hc : c.Wf) : c.tickBits ≤ 32 := by
  obtain ⟨-, -, -, -, -, ⟨-, hle⟩, -⟩ := hc
  exact hle

theorem two_pow_tickBits_le {c : Config} (hc : c.Wf) : 2 ^ c.tickBits ≤ 2 ^ 32 :=
  Nat.pow_le_pow_right (by decide) (tickBits_le_of_wf hc)

/-- The counter's bits fit TICK, so the value cut to them is the remainder. -/
theorem tickTrunc_toNat_of_wf {c : Config} (hc : c.Wf) (v : Nat) : (tickTrunc c v).toNat = v % 2 ^ c.tickBits := by
  have hfits := two_pow_tickBits_le hc
  have hlt := Nat.mod_lt v (Nat.two_pow_pos c.tickBits)
  rw [tickTrunc_toNat, Nat.mod_eq_of_lt (by omega)]

/-- Settles O32: the tick is taken, and counts while RUN = 1. -/
theorem tickerStepsWhileRunning : Obligations.TickerStepsWhileRunning := fun _ _ hwait hi =>
  step_of_tick (fun hs hr => hwait ⟨hs, hr⟩) hi

/-- `n` ticks of a running counter that started at 0. -/
theorem iterate_ticked {s : State} (hc : s.cfg.Wf) (hr : s.run = true) (h0 : s.tick = 0) (n : Nat) :
    State.ticked^[n] s =
      { s with tick := tickTrunc s.cfg n, history := s.history ++ List.replicate n .tick } := by
  induction n with
  | zero =>
    have hzero : tickTrunc s.cfg 0 = s.tick := by simp [tickTrunc, h0]
    simp [hzero]
  | succ n ih =>
    rw [Function.iterate_succ_apply', ih, State.ticked_of_run _ (by exact hr)]
    have hnext : tickTrunc s.cfg ((tickTrunc s.cfg n).toNat + 1) = tickTrunc s.cfg (n + 1) := by
      rw [tickTrunc_toNat_of_wf hc, tickTrunc, tickTrunc, Nat.mod_add_mod]
    simp only [hnext, List.replicate_succ', List.append_assoc]

/-- Settles O33: TICK is the remainder of the ticks. -/
theorem reachedFollowsTheWrappingCounter : Obligations.ReachedFollowsTheWrappingCounter := by
  intro s n hc hr h0
  have htick : (tickTrunc s.cfg n).toNat = n % 2 ^ s.cfg.tickBits := tickTrunc_toNat_of_wf hc n
  have hlt := Nat.mod_lt n (Nat.two_pow_pos s.cfg.tickBits)
  rw [iterate_ticked hc hr h0]
  simp only [Reached, htick]
  refine ⟨trivial, trivial, fun hdelay => by omega, fun hdelay => ?_⟩
  simp [hdelay]

/-! ### A held FPWAIT short of its delay (R170, R171) -/

section
variable {s t : State} (hs : s.seq = .waiting)
include hs

/-- With no agent named by the schedule only the ticker is left. -/
theorem step_of_held (hr : ¬ Reached s) (hi : agentNext s.inputs = false) : step s = heldStep s := by
  rw [step_of_waiting hs, waitingStep, if_neg hr]
  cases hin : s.inputs with
  | nil => rfl
  | cons i rest =>
    cases i with
    | access g a => rfl
    | store a b => rfl
    | _ => simp [hin, agentNext] at hi

theorem step_of_reached (hr : Reached s) : step s = .next s.completeWait := by
  rw [step_of_waiting hs, waitingStep, if_pos hr]

/-- Short of its delay and with no reset next, a hold goes on: the ticker steps, or an input passes. -/
theorem held_of_step (hr : ¬ Reached s) (hreset : resetNext s.inputs = false) (h : step s = .next t) :
    ∃ rest, t = ({ s with inputs := rest } : State).ticked ∨ t = { s with inputs := rest } := by
  cases stepEffect_of_step h with
  | ticked rest => exact ⟨rest, .inl rfl⟩
  | reset rest hi => simp [hi, resetNext] at hreset
  | passed rest => exact ⟨rest, .inr rfl⟩
  | completed _ hreached => exact absurd hreached hr
  | drew _ _ _ _ _ hdrawing => simp [hs] at hdrawing
  | read _ hidle | wrote _ _ _ _ _ hidle | raisedIllegal _ _ hidle | ran _ _ _ _ _ hidle | stored _ _ _ hidle =>
    simp [hs] at hidle

end

theorem add_one_eq_ofNat (w : Word) : w + 1 = BitVec.ofNat 32 ((w.toNat + 1) % 2 ^ 32) := by
  refine BitVec.eq_of_toNat_eq ?_
  simp

theorem completeWait_eq (s : State) :
    s.completeWait = { s with
      tick := 0, swapCnt := BitVec.ofNat 32 ((s.swapCnt.toNat + 1) % 2 ^ 32), seq := .idle,
      history := s.history ++ [.swapReq] } := by
  rw [← add_one_eq_ofNat]
  rfl

/-- Settles O29: the check at acceptance, the hold, and the completion. -/
theorem fpwaitCompletesOrHolds : Obligations.FpwaitCompletesOrHolds := by
  intro s
  refine ⟨rfl, fun hr => ?_, fun hlt => if_neg (Nat.not_le.2 hlt), fun hs hlt hreset t h => ?_, fun hs hr => ?_,
    fun he g w hopc hw => ?_⟩
  · rw [← completeWait_eq]
    exact if_pos hr
  · obtain ⟨rest, rfl | rfl⟩ := held_of_step hs (Nat.not_le.2 hlt) hreset h
    · simp [hs]
    · simp [hs]
  · rw [← completeWait_eq]
    exact step_of_reached hs hr
  · refine raisesIllegal_of_opcode he hopc fun i hi => ?_
    cases i with
    | fpwait => exact hw
    | _ => cases hi

/-- Settles O36: the completion and the reset are the only steps that leave the hold. -/
theorem heldFpwaitEndsOnlyByCompletionOrReset : Obligations.HeldFpwaitEndsOnlyByCompletionOrReset := by
  intro s t hs h hleft
  by_cases hr : Reached s
  · rw [step_of_reached hs hr] at h
    cases h
    exact .inl ⟨hr, rfl, rfl, rfl⟩
  · refine .inr ⟨Nat.not_le.1 hr, ?_⟩
    by_contra hreset
    obtain ⟨rest, rfl | rfl⟩ := held_of_step hs hr (by simpa using hreset) h
    · simp [hs] at hleft
    · simp [hs] at hleft

/-! ### A hold that is reached (R171) -/

theorem runSteps_succ_of_step {s t : State} (h : step s = .next t) (n : Nat) : runSteps (n + 1) s = runSteps n t := by
  rw [runSteps, h]

theorem runSteps_one (s : State) : runSteps 1 s = step s := by
  rw [runSteps]
  cases step s <;> rfl

/-- While a hold is short of its delay, each step of the run is a tick. -/
theorem runSteps_held {k : Nat} (m : Nat) {s : State} (hs : s.seq = .waiting) (hr : s.run = true)
    (hk : s.tick.toNat + k ≤ s.delay.toNat) (hd : s.delay.toNat < 2 ^ s.cfg.tickBits) (hi : agentNext s.inputs = false) :
    runSteps (k + m) s = runSteps m { s with
      tick := BitVec.ofNat 32 (s.tick.toNat + k), history := s.history ++ List.replicate k .tick } := by
  induction k generalizing s with
  | zero => simp
  | succ k ih =>
    have hdelay := s.delay.isLt
    have hstep : step s = .next s.ticked := by
      have hshort : ¬ Reached s := by
        rw [Reached]
        omega
      rw [step_of_held hs hshort hi, heldStep, if_pos hr]
    have htick : tickTrunc s.cfg (s.tick.toNat + 1) = BitVec.ofNat 32 (s.tick.toNat + 1) := by
      rw [tickTrunc, Nat.mod_eq_of_lt (by omega)]
    have hnat : (BitVec.ofNat 32 (s.tick.toNat + 1)).toNat = s.tick.toNat + 1 := by
      rw [BitVec.toNat_ofNat, Nat.mod_eq_of_lt (by omega)]
    rw [Nat.add_right_comm, runSteps, hstep, State.ticked_of_run s hr, htick]
    refine (ih (s := { s with tick := BitVec.ofNat 32 (s.tick.toNat + 1), history := s.history ++ [.tick] }) hs hr
      (by simp only [hnat]; omega) hd hi).trans ?_
    simp only [hnat, List.append_assoc, List.singleton_append, ← List.replicate_succ, Nat.add_assoc, Nat.add_comm 1 k]

/-- Settles O34: the ticks up to the delay, then the completion. -/
theorem heldFpwaitCompletesWithinDelay : Obligations.HeldFpwaitCompletesWithinDelay := by
  intro s _ hs hr hlt hd hi
  have hsum : s.tick.toNat + (s.delay.toNat - s.tick.toNat) = s.delay.toNat := by omega
  refine (runSteps_held 1 hs hr hsum.le hd hi).trans ((runSteps_one _).trans (step_of_reached (by exact hs) ?_))
  simp [Reached, hsum]

/-! ### A hold that is never reached (R171; spec/70_reset_and_hazards.md R292) -/

theorem State.ticked_tickOk {s : State} (h : s.TickOk) : s.ticked.TickOk := by
  cases hr : s.run with
  | false => rwa [State.ticked_of_stopped s hr]
  | true =>
    rw [State.ticked_of_run s hr]
    exact tickTrunc_lt ..

/-- A tick mends no stuck hold: a stopped ticker does nothing, and a running one stays below the delay. -/
theorem State.Stuck.ticked {s : State} (h : s.Stuck) : s.ticked.Stuck := by
  obtain ⟨hs, hlt, hcause⟩ := h
  cases hr : s.run with
  | false =>
    rw [State.ticked_of_stopped s hr]
    exact ⟨hs, hlt, hcause⟩
  | true =>
    have hdelay : 2 ^ s.cfg.tickBits ≤ s.delay.toNat := by simpa [hr] using hcause
    rw [State.ticked_of_run s hr]
    exact ⟨hs, (tickTrunc_lt ..).trans_le hdelay, .inr hdelay⟩

/-- Settles O35: without the ticker there is no step, and with it every step keeps the hold stuck. -/
theorem unreachableFpwaitNeverCompletes : Obligations.UnreachableFpwaitNeverCompletes := by
  refine ⟨fun s hs hlt hr hi => ?_, fun s t _ hs htick hdelay hreset h => ?_, fun s t _ hstuck hreset h => ?_⟩
  · rw [step_of_held hs (Nat.not_le.2 hlt) hi, heldStep, hr]
    rfl
  · have hshort : ¬ Reached s := Nat.not_le.2 (htick.trans_le hdelay)
    obtain ⟨rest, rfl | rfl⟩ := held_of_step hs hshort hreset h
    · have hok : ({ s with inputs := rest } : State).ticked.TickOk := State.ticked_tickOk htick
      exact ⟨by simpa using hs, hok, by simp⟩
    · exact ⟨hs, htick, rfl, rfl, rfl, rfl, rfl⟩
  · have hhold := hstuck
    obtain ⟨hs, hlt, -⟩ := hhold
    obtain ⟨rest, rfl | rfl⟩ := held_of_step hs (Nat.not_le.2 hlt) hreset h
    · have hticked : ({ s with inputs := rest } : State).ticked.Stuck := State.Stuck.ticked hstuck
      exact ⟨hticked, .inr hticked, by simp, by simp⟩
    · exact ⟨hstuck, .inr hstuck, rfl, rfl⟩

end Sys2Proof.Machine
end

section
/-! The block never reads bus memory (spec/20_memory.md R67): with other memory contents every operation, every command and every
step has the same outcome, but for memory. -/

namespace Sys2Proof.Machine

/-! ### The operations -/

section
variable (s : State) (m : Memory)

theorem State.ticked_with_memory : ({ s with memory := m } : State).ticked = { s.ticked with memory := m } := by
  simp only [State.ticked]
  split
  · rfl
  · rfl

theorem State.writeReg_with_memory (r : Reg) (v : Word) :
    ({ s with memory := m } : State).writeReg r v = { s.writeReg r v with memory := m } := by
  cases r <;> rfl

theorem State.readReg_with_memory (r : Reg) : ({ s with memory := m } : State).readReg r = s.readReg r := by
  cases r <;> rfl

theorem State.writeBytes_with_memory (ws : List ByteWrite) :
    ∃ m', ({ s with memory := m } : State).writeBytes ws = { s.writeBytes ws with memory := m' } := by
  induction ws generalizing s m with
  | nil => exact ⟨m, rfl⟩
  | cons w ws ih => exact ih (s.writeByte w) (m.store s.cfg w.1 w.2)

theorem State.drawPixels_with_memory (sc : Screen) (ps : List Nat) :
    ∃ m', ({ s with memory := m } : State).drawPixels sc ps = { s.drawPixels sc ps with memory := m' } := by
  obtain ⟨m', h⟩ := State.writeBytes_with_memory s m (ps.flatMap (pixelWrites s sc))
  refine ⟨m', ?_⟩
  rw [drawPixels_eq, drawPixels_eq, show pixelWrites ({ s with memory := m } : State) sc = pixelWrites s sc from rfl, h]

theorem State.drawStep_with_memory :
    ∃ m', ({ s with memory := m } : State).drawStep = { s.drawStep with memory := m' } := by
  obtain hs | hs | ⟨sc, scan, pending, hs⟩ := s.seq_cases
  · exact ⟨m, by simp only [State.drawStep, hs]⟩
  · exact ⟨m, by simp only [State.drawStep, hs]⟩
  · cases pending with
    | cons w ws => exact ⟨m.store s.cfg w.1 w.2, by simp only [State.drawStep, hs]; rfl⟩
    | nil =>
      cases scan with
      | none => exact ⟨m, by simp only [State.drawStep, hs]⟩
      | some cp =>
        obtain ⟨char, p⟩ := cp
        cases hb : scanBit s.cfg char p with
        | false => exact ⟨m, by simp [State.drawStep, hs, hb]⟩
        | true => exact ⟨m, by simp only [State.drawStep, hs, hb, if_true]; rfl⟩

end

/-! ### The outcomes -/

/-- The same fault, the same refusal, or next states that differ in memory only. -/
inductive SameButMemory : Outcome → Outcome → Prop
  | next {t u : State} (m : Memory) (h : u = { t with memory := m }) : SameButMemory (.next t) (.next u)
  | fault (f : Fault) : SameButMemory (.fault f) (.fault f)
  | refused (r : Refusal) : SameButMemory (.refused r) (.refused r)

theorem SameButMemory.ite {p : Prop} [Decidable p] {a b a' b' : Outcome} (ha : SameButMemory a a')
    (hb : SameButMemory b b') : SameButMemory (if p then a else b) (if p then a' else b') := by
  split
  · exact ha
  · exact hb

theorem sameButMemory_runCommand (g : Grain) (i : Instr) (s : State) (m : Memory) :
    SameButMemory (runCommand g i s) (runCommand g i { s with memory := m }) := by
  have hchecks {inBounds hits : Prop} [Decidable inBounds] [Decidable hits] {t u v : State}
      (h : ∃ m', u = { t with memory := m' }) :
      SameButMemory (if inBounds then if hits then .refused .windowOverlap else .next t else .next v)
        (if inBounds then if hits then .refused .windowOverlap else .next u else .next { v with memory := m }) := by
    obtain ⟨m', h⟩ := h
    exact .ite (.ite (.refused _) (.next m' h)) (.next m rfl)
  cases i with
  | pxput sc row col =>
    cases g with
    | whole => exact hchecks (State.drawPixels_with_memory s m sc [_])
    | stepwise => exact hchecks ⟨m, rfl⟩
  | glyph sc char =>
    cases g with
    | whole => exact hchecks (State.drawPixels_with_memory s m sc _)
    | stepwise => exact hchecks ⟨m, rfl⟩
  | pxaddr | fpstart | fpwait =>
    rw [runCommand_eq_exec (by simp) (by simp), runCommand_eq_exec (by simp) (by simp)]
    exact .ite (.next m rfl) (.next m rfl)
  | nop | fprate | fpstop =>
    rw [runCommand_eq_exec (by simp) (by simp), runCommand_eq_exec (by simp) (by simp)]
    exact .next m rfl

theorem sameButMemory_acceptCommand (g : Grain) (w : Word) (s : State) (m : Memory) :
    SameButMemory (acceptCommand g w s) (acceptCommand g w { s with memory := m }) := by
  refine .ite (.next m rfl) ?_
  cases decode w with
  | command i => exact sameButMemory_runCommand g i (s.record (.cmd w)) m
  | illegal why => exact .next m rfl

theorem sameButMemory_hostAccess (g : Grain) (a : Access) (s : State) (m : Memory) :
    SameButMemory (hostAccess g a s) (hostAccess g a { s with memory := m }) := by
  unfold hostAccess
  cases accessRefusal s.cfg a with
  | some why => exact .refused why
  | none =>
    cases regAt (a.addr.toNat - s.cfg.base) with
    | none => exact .refused _
    | some r =>
      cases a with
      | read p n =>
        refine .next m ?_
        rw [State.readReg_with_memory]
        rfl
      | write p n v =>
        by_cases hr : r = .cmd
        · subst hr
          exact sameButMemory_acceptCommand g v (s.record (.regWrite (regOffset .cmd) v)) m
        · simp only [regAccess_write hr]
          refine .next m ?_
          rw [State.writeReg_with_memory]
          rfl

theorem sameButMemory_hostStore (a : Word) (b : Byte) (s : State) (m : Memory) :
    SameButMemory (hostStore a b s) (hostStore a b { s with memory := m }) :=
  .ite (.refused _) (.next _ rfl)

section
variable {s u : State} {m : Memory} (h : u = { s with memory := m })
include h

theorem sameButMemory_idleStep : SameButMemory (idleStep s) (idleStep u) := by
  rw [idleStep, idleStep, show u.inputs = s.inputs by rw [h]]
  cases s.inputs with
  | nil => exact .next m (by rw [h]; exact State.ticked_with_memory s m)
  | cons i rest =>
    subst h
    cases i with
    | tick => exact .next m (State.ticked_with_memory { s with inputs := rest } m)
    | reset => exact .next m rfl
    | sequencer => exact .next m rfl
    | access g a => exact sameButMemory_hostAccess g a { s with inputs := rest } m
    | store a b => exact sameButMemory_hostStore a b { s with inputs := rest } m

theorem sameButMemory_heldStep : SameButMemory (heldStep s) (heldStep u) := by
  subst h
  exact .ite (.next m (State.ticked_with_memory s m)) (.fault _)

theorem sameButMemory_waitingStep : SameButMemory (waitingStep s) (waitingStep u) := by
  have hheld := sameButMemory_heldStep h
  have hreached : Reached u ↔ Reached s := by rw [h]
  rw [waitingStep, waitingStep, show u.inputs = s.inputs by rw [h]]
  by_cases hr : Reached s
  · rw [if_pos hr, if_pos (hreached.2 hr)]
    exact .next m (by rw [h]; rfl)
  rw [if_neg hr, if_neg (mt hreached.1 hr)]
  cases s.inputs with
  | nil => exact hheld
  | cons i rest =>
    cases i with
    | tick => exact .next m (by rw [h]; exact State.ticked_with_memory { s with inputs := rest } m)
    | reset => exact .next m (by rw [h]; rfl)
    | sequencer => exact .next m (by rw [h])
    | access g a => exact hheld
    | store a b => exact hheld

theorem sameButMemory_drawingStep : SameButMemory (drawingStep s) (drawingStep u) := by
  obtain ⟨m', hdraw⟩ := State.drawStep_with_memory s m
  rw [drawingStep, drawingStep, show u.inputs = s.inputs by rw [h]]
  cases s.inputs with
  | nil => exact .next m' (by rw [h, hdraw])
  | cons i rest =>
    cases i with
    | tick => exact .next m (by rw [h]; exact State.ticked_with_memory { s with inputs := rest } m)
    | reset => exact .next m (by rw [h]; rfl)
    | sequencer =>
      obtain ⟨m'', hturn⟩ := State.drawStep_with_memory { s with inputs := rest } m
      exact .next m'' (by rw [h]; exact hturn)
    | access g a => exact .next m' (by rw [h, hdraw])
    | store a b => exact .next m' (by rw [h, hdraw])

end

theorem sameButMemory_step (s : State) (m : Memory) : SameButMemory (step s) (step { s with memory := m }) := by
  obtain hs | hs | ⟨sc, scan, pending, hs⟩ := s.seq_cases
  · rw [step_of_idle hs, step_of_idle (s := { s with memory := m }) hs]
    exact sameButMemory_idleStep rfl
  · rw [step_of_waiting hs, step_of_waiting (s := { s with memory := m }) hs]
    exact sameButMemory_waitingStep rfl
  · rw [step_of_drawing hs, step_of_drawing (s := { s with memory := m }) hs]
    exact sameButMemory_drawingStep rfl

/-- Settles O53: the outcomes of the two steps, one by one. -/
theorem blockNeverReadsMemory : Obligations.BlockNeverReadsMemory := by
  intro s m
  have h := sameButMemory_step s m
  refine ⟨fun t ht => ?_, fun f hf => ?_, fun r hr => ?_⟩
  · rw [ht] at h
    generalize step { s with memory := m } = o at h
    cases h with
    | next m' hu => exact ⟨m', congrArg Host.Outcome.next hu⟩
  · rw [hf] at h
    generalize step { s with memory := m } = o at h
    cases h with
    | fault => rfl
  · rw [hr] at h
    generalize step { s with memory := m } = o at h
    cases h with
    | refused => rfl

end Sys2Proof.Machine
end

section
/-! The host's sequences (spec/43_host_sequences.md): DRAWGLYPH's four accesses as steps, the layout of a text character by character,
and the frames of a splash one by one. -/

namespace Sys2Proof.Machine

/-! ### DRAWGLYPH (R190, R208) -/

/-- Settles O55: three registers written, then the command run. -/
theorem drawGlyphSequenceRunsTheGlyph : Obligations.DrawGlyphSequenceRunsTheGlyph := by
  intro s g rest sc x y color char hc hs he hi
  rw [runSteps_succ_of_step (step_of_write (r := .posX) (by decide) hc hs hi),
    runSteps_succ_of_step (step_of_write (r := .posY) (v := y) (g := g) (by decide) (by exact hc) (by exact hs) rfl),
    runSteps_succ_of_step (step_of_write (r := .color) (v := color) (g := g) (by decide) (by exact hc) (by exact hs) rfl),
    runSteps_one]
  refine (step_of_command (g := g) (by exact hc) (by exact hs) (by exact he) (decodeOfEncode (.glyph sc char)) rfl).trans ?_
  simp [State.writeReg, regOffset]

/-- A register holds a coordinate whole, or the largest number. -/
theorem coordinateWord_toNat (n : Nat) : (coordinateWord n).toNat = min n (2 ^ 32 - 1) := by
  rw [coordinateWord, BitVec.toNat_ofNat, Nat.mod_eq_of_lt (by omega)]

/-- A screen of at least 8 pixels each way has far fewer than 2^32 pixels either way. -/
theorem width_height_lt_of_wf {c : Config} (hc : c.Wf) (sc : Screen) : c.width sc < 2 ^ 32 ∧ c.height sc < 2 ^ 32 := by
  obtain ⟨hw, hh⟩ := screenHoldsGlyph_of_wf hc sc
  have hfit := frameFits_of_wf hc sc
  rw [Config.FrameFits, Config.frameBytes, Nat.mul_assoc] at hfit
  have hwidth : c.width sc * 8 ≤ c.width sc * c.height sc := Nat.mul_le_mul_left _ hh
  have hheight : 8 * c.height sc ≤ c.width sc * c.height sc := Nat.mul_le_mul_right _ hw
  omega

/-- Settles O56: a coordinate off the screen stays off it as a word, so the GLYPH's check fails. -/
theorem offscreenGlyphOfTheLayoutFaults : Obligations.OffscreenGlyphOfTheLayoutFaults := by
  intro s g rest sc color p hc hs he hi hout
  obtain ⟨hw, hh⟩ := width_height_lt_of_wf hc sc
  refine (drawGlyphSequenceRunsTheGlyph s g rest sc _ _ color p.char hc hs he hi).trans ?_
  rw [runCommand_glyph_of_not_inBounds]
  · simp [State.raise, Cause.code]
  · rw [inBoundsGlyph_iff (by exact hc)]
    simp only [coordinateWord_toNat]
    omega

/-! ### DRAWSTRING (R200 to R205) -/

theorem layoutChar_newline (c : Config) (sc : Screen) (posX : Nat) (u : Cursor) :
    layoutChar c sc posX u 0x0A = some (⟨u.posY + c.spacingY, 0⟩, none) :=
  if_pos rfl

theorem layoutText_cons {c : Config} {sc : Screen} {posX : Nat} {u v : Cursor} {ch : Byte} {drawn : Option Placement}
    (h : layoutChar c sc posX u ch = some (v, drawn)) (text : List Byte) :
    layoutText c sc posX u (ch :: text) =
      (layoutText c sc posX v text).map fun q => (drawn.toList ++ q.1, q.2) := by
  simp only [layoutText, h]
  cases layoutText c sc posX v text <;> rfl

theorem drawString_newline {c : Config} {sc : Screen} {posX : Nat} (hx : posX ≤ c.width sc) (g : Grain) (posY : Nat)
    (color : Word) : drawString c g sc posX posY color [0x0A] = some ([], posY + c.spacingY) := by
  rw [drawString, if_neg (Nat.not_lt.2 hx), layoutText_cons (layoutChar_newline ..)]
  rfl

/-- Settles O57. -/
theorem twoNewlinesAdvanceTwoLines : Obligations.TwoNewlinesAdvanceTwoLines := by
  intro c g sc posX posY color hx
  refine ⟨drawString_newline hx g posY color, ?_⟩
  rw [drawString_newline hx, Nat.add_assoc, ← Nat.two_mul]

section
variable {c : Config} {sc : Screen} {posX : Nat} {ch : Byte} (hspace : 0 < c.spacingX) (hch : ch ≠ 0x0A ∧ ch ≠ 0x09)
include hspace hch

/-- R205: a character that fits stands at its column. -/
theorem layoutChar_fits {column : Nat} (hu : column < usableColumns c sc posX) (posY : Nat) :
    layoutChar c sc posX ⟨posY, column⟩ ch =
      some (⟨posY, column + 1⟩, some ⟨ch, posX + column * c.spacingX, posY⟩) := by
  obtain ⟨hnewline, htab⟩ := hch
  rw [layoutChar, if_neg hnewline, if_neg htab, if_neg (Nat.pos_iff_ne_zero.1 hspace), if_neg (Nat.not_le.2 hu)]

/-- R204: a character past the last column goes to column 1 of the next line, a space without a glyph. -/
theorem layoutChar_wraps {column : Nat} (hu : usableColumns c sc posX ≤ column) (posY : Nat) :
    layoutChar c sc posX ⟨posY, column⟩ ch =
      some (⟨posY + c.spacingY, if ch = 0x20 then 1 else 2⟩,
        if ch = 0x20 then none else some ⟨ch, posX + c.spacingX, posY + c.spacingY⟩) := by
  obtain ⟨hnewline, htab⟩ := hch
  rw [layoutChar, if_neg hnewline, if_neg htab, if_neg (Nat.pos_iff_ne_zero.1 hspace), if_pos hu, Nat.one_mul]
  split
  · rfl
  · rfl

end

/-- The characters that fit are drawn one after another, and the layout goes on behind them. -/
theorem layoutText_line {c : Config} {sc : Screen} {posX posY column : Nat} {line : List Byte} (hspace : 0 < c.spacingX)
    (hline : ∀ b ∈ line, b ≠ 0x0A ∧ b ≠ 0x09) (hfits : column + line.length ≤ usableColumns c sc posX) (text : List Byte) :
    layoutText c sc posX ⟨posY, column⟩ (line ++ text) =
      (layoutText c sc posX ⟨posY, column + line.length⟩ text).map fun q =>
        ((line.zipIdx column).map (fun (b, n) => (⟨b, posX + n * c.spacingX, posY⟩ : Placement)) ++ q.1, q.2) := by
  induction line generalizing column with
  | nil => simp
  | cons b line ih =>
    rw [List.length_cons] at hfits
    have hfirst := layoutChar_fits (sc := sc) (posX := posX) (column := column) hspace (hline b List.mem_cons_self)
      (by omega) posY
    rw [List.cons_append, layoutText_cons hfirst,
      ih (fun a ha => hline a (List.mem_cons_of_mem _ ha)) (by omega), Option.map_map, List.length_cons,
      Nat.add_right_comm column 1, ← Nat.add_assoc]
    rfl

/-- Settles O58: the line that fits, then the character that wraps. -/
theorem longTextWrapsToColumnOne : Obligations.LongTextWrapsToColumnOne := by
  intro c sc posX posY line rest ch hspace hline hnewline htab hlength
  have hcolumns : line.length = usableColumns c sc posX := hlength
  have hwraps := layoutChar_wraps (sc := sc) (posX := posX) (column := 0 + line.length) hspace ⟨hnewline, htab⟩
    (by omega) posY
  rw [layoutText_line hspace hline (by omega), layoutText_cons hwraps, Option.map_map]
  refine congrArg (Option.map · _) (funext fun q => ?_)
  split_ifs
  · simp
  · simp

/-! ### PLAYSPLASH (R220 to R227) -/

/-- A short frame ends the loop. -/
theorem splashLoop_short {c : Config} {bytes : List Byte} (h : bytes.length < c.frameBytes .top) (g : Grain)
    (target : Word) (targets : List Word) :
    splashLoop c g (target :: targets) bytes = some (copyFrame target bytes) := by
  have htake : bytes.take (c.frameBytes .top) = bytes := List.take_of_length_le h.le
  simp only [splashLoop, htake, if_pos h]

/-- A full frame is copied and followed by one FPWAIT. -/
theorem splashLoop_full {c : Config} {frame : List Byte} (h : frame.length = c.frameBytes .top) (g : Grain)
    (target : Word) (targets : List Word) (bytes : List Byte) :
    splashLoop c g (target :: targets) (frame ++ bytes) =
      (splashLoop c g targets bytes).map fun rest => copyFrame target frame ++ wrCommand c g .fpwait :: rest := by
  have htake : (frame ++ bytes).take (c.frameBytes .top) = frame := by rw [← h, List.take_left]
  have hdrop : (frame ++ bytes).drop (c.frameBytes .top) = bytes := by rw [← h, List.drop_left]
  simp only [splashLoop, htake, hdrop, h, lt_irrefl, if_false]
  cases splashLoop c g targets bytes <;> rfl

theorem splashLoop_frames {c : Config} (g : Grain) {part : List Byte} (last : Word) (hpart : part.length < c.frameBytes .top)
    {frames : List (List Byte)} {targets : List Word} (hlength : targets.length = frames.length)
    (hfull : ∀ f ∈ frames, f.length = c.frameBytes .top) :
    splashLoop c g (targets ++ [last]) (frames.flatten ++ part) =
      some (((targets.zip frames).flatMap fun tf => copyFrame tf.1 tf.2 ++ [wrCommand c g .fpwait]) ++
        copyFrame last part) := by
  induction frames generalizing targets with
  | nil =>
    obtain rfl := List.eq_nil_of_length_eq_zero hlength
    exact splashLoop_short hpart g last []
  | cons frame frames ih =>
    cases targets with
    | nil => cases hlength
    | cons target targets =>
      rw [List.flatten_cons, List.append_assoc, List.cons_append, splashLoop_full (hfull frame List.mem_cons_self),
        ih (by simpa using hlength) fun f hf => hfull f (List.mem_cons_of_mem _ hf)]
      simp

/-- Settles O60: the loop's inputs between the rate with the start and the stop. -/
theorem splashWaitsOncePerFullFrame : Obligations.SplashWaitsOncePerFullFrame := by
  refine ⟨fun _ _ _ => rfl, fun c g targets rate frames part last hlength hfull hpart => ?_⟩
  have hloop := splashLoop_frames g last hpart hlength hfull
  cases rate with
  | none => simp [playSplash, hloop, splashRate]
  | some b => simp [playSplash, hloop, splashRate]

end Sys2Proof.Machine
end
